-- ==== Sys2Proof/Word.lean ====
section
/-! DEFINITION. The machine's words: bytes, 32-bit instruction words, stored singles and addresses, 64-bit
register images, and register numbers (00_scope.md R6, R8, R10). -/

namespace Sys2Proof

/-- One byte of memory (20_memory.md R51). -/
abbrev Byte := BitVec 8

/-- A 32-bit instruction word (30_encoding.md R80) or the binary32 image a store writes (R121). -/
abbrev Word := BitVec 32

/-- A 32-bit effective address, and the program counter (20_memory.md R50, 10_state.md R28). -/
abbrev Addr := BitVec 32

/-- A 64-bit general register value (10_state.md R20) or the binary64 image of a floating-point
register (10_state.md R24). -/
abbrev Dword := BitVec 64

/-- A register number 0 to 31: the value of a 5-bit field, every value of which is legal
(30_encoding.md R83). -/
abbrev RegNum := Fin 32

end Sys2Proof
end

