-- ==== Sys2Proof/Syntax.lean ====
section
/-! DEFINITION. The four instructions of 00_scope.md R1 (opcode table: 30_encoding.md R92), one constructor
per row of spec/opcode_table.json. -/

namespace Sys2Proof

/-- An instruction with its operand fields (30_encoding.md R81, R82, R83): `fs` the source floating-point
register, `ra` the base general register, `rb` the index general register, `d` the 16-bit displacement
field. Whether a zero `ra` means the number zero or `r0` depends on the mnemonic (R85). -/
inductive Instr where
  /-- `stfs FS, d(RA)`, Store Floating-Point Single (R102). -/
  | stfs (fs ra : RegNum) (d : BitVec 16)
  /-- `stfsu FS, d(RA)`, Store Floating-Point Single with Update (R104). -/
  | stfsu (fs ra : RegNum) (d : BitVec 16)
  /-- `stfsx FS, RA, RB`, Store Floating-Point Single Indexed (R105). -/
  | stfsx (fs ra rb : RegNum)
  /-- `stfsux FS, RA, RB`, Store Floating-Point Single with Update Indexed (R106). -/
  | stfsux (fs ra rb : RegNum)
deriving DecidableEq, Repr

namespace Instr

/-- The source floating-point register, instruction bits 6-10 (R83). -/
def fs : Instr → RegNum
  | .stfs fs _ _ => fs
  | .stfsu fs _ _ => fs
  | .stfsx fs _ _ => fs
  | .stfsux fs _ _ => fs

/-- The base general register, instruction bits 11-15 (R83). -/
def ra : Instr → RegNum
  | .stfs _ ra _ => ra
  | .stfsu _ ra _ => ra
  | .stfsx _ ra _ => ra
  | .stfsux _ ra _ => ra

/-- The update forms: the instructions that also write the address back to `RA` (glossary of 00_scope.md). -/
def isUpdate : Instr → Bool
  | .stfs _ _ _ => false
  | .stfsu _ _ _ => true
  | .stfsx _ _ _ => false
  | .stfsux _ _ _ => true

/-- The indexed forms: form `X` (30_encoding.md R82). -/
def isIndexed : Instr → Bool
  | .stfs _ _ _ => false
  | .stfsu _ _ _ => false
  | .stfsx _ _ _ => true
  | .stfsux _ _ _ => true

end Instr

end Sys2Proof
end

