-- ==== Sys2Proof/WellFormed.lean ====
section
/-! DEFINITION. Which instructions are valid forms (30_encoding.md R90). -/

namespace Sys2Proof

/-- The instruction is a valid form: an update form names a base register other than `r0`
(30_encoding.md R90: `RA = 0` is the only invalid form; `RA == RB` and any `FS` are valid). -/
def Instr.wellFormed : Instr → Bool
  | .stfs _ _ _ => true
  | .stfsu _ ra _ => decide (ra ≠ 0)
  | .stfsx _ _ _ => true
  | .stfsux _ ra _ => decide (ra ≠ 0)

end Sys2Proof
end

