-- ==== Sys2Proof/Decode.lean ====
section
/-! DEFINITION. The decoder of 30_encoding.md R83 and R88, total on every word, the opcode table of R92, and
the encoder of R97; with the big-endian byte order of words (20_memory.md R52, R53), decided here once. -/

namespace Sys2Proof

/-! ### Byte order -/

/-- The four bytes of a word, most significant first (20_memory.md R52). -/
def bytesOfWord (w : Word) : List Byte :=
  [w.extractLsb' 24 8, w.extractLsb' 16 8, w.extractLsb' 8 8, w.extractLsb' 0 8]

/-- The number `Mem[a] || Mem[a+1] || ...`, the first byte most significant (20_memory.md R53). -/
def numberOfBytes (bs : List Byte) : Nat :=
  bs.foldl (fun acc b => 256 * acc + b.toNat) 0

/-- The 32-bit word of a list of bytes, the first byte most significant (20_memory.md R55). -/
def wordOfBytes (bs : List Byte) : Word := BitVec.ofNat 32 (numberOfBytes bs)

/-! ### Fields -/

/-- A register number from a 5-bit field (30_encoding.md R83). -/
def regOfField (f : BitVec 5) : RegNum := ⟨f.toNat, f.isLt⟩

/-- The 5-bit field of a register number (30_encoding.md R97). -/
def fieldOfReg (r : RegNum) : BitVec 5 := BitVec.ofNat 5 r.val

/-- `OPCD = insn[31:26]` (R83). -/
def fieldOPCD (w : Word) : BitVec 6 := w.extractLsb' 26 6
/-- `FS = insn[25:21]` (R83). -/
def fieldFS (w : Word) : RegNum := regOfField (w.extractLsb' 21 5)
/-- `RA = insn[20:16]` (R83). -/
def fieldRA (w : Word) : RegNum := regOfField (w.extractLsb' 16 5)
/-- `RB = insn[15:11]` (R83). -/
def fieldRB (w : Word) : RegNum := regOfField (w.extractLsb' 11 5)
/-- `D = insn[15:0]` (R83). -/
def fieldD (w : Word) : BitVec 16 := w.extractLsb' 0 16
/-- `XO = insn[10:1]` (R83). -/
def fieldXO (w : Word) : BitVec 10 := w.extractLsb' 1 10
/-- `Rc = insn[0]` (R83). -/
def fieldRc (w : Word) : BitVec 1 := w.extractLsb' 0 1

/-! ### The opcode map -/

/-- Primary opcode of `stfs` (30_encoding.md R86). -/
def opcdStfs : BitVec 6 := 52
/-- Primary opcode of `stfsu` (R86). -/
def opcdStfsu : BitVec 6 := 53
/-- Primary opcode of the X-form group (R86). -/
def opcdX : BitVec 6 := 31
/-- Extended opcode of `stfsx` (R87). -/
def xoStfsx : BitVec 10 := 663
/-- Extended opcode of `stfsux` (R87). -/
def xoStfsux : BitVec 10 := 695

/-- A row of the opcode table (30_encoding.md R92): a word is the instruction exactly when
`(w AND mask) == pattern`. -/
structure OpcodeRow where
  mnemonic : String
  pattern : Word
  mask : Word
deriving DecidableEq, Repr

/-- A word matches a row (R92). -/
def OpcodeRow.accepts (r : OpcodeRow) (w : Word) : Bool := w &&& r.mask == r.pattern

def rowStfs : OpcodeRow := ⟨"stfs", 0xD0000000, 0xFC000000⟩
def rowStfsu : OpcodeRow := ⟨"stfsu", 0xD4000000, 0xFC000000⟩
def rowStfsx : OpcodeRow := ⟨"stfsx", 0x7C00052E, 0xFC0007FF⟩
def rowStfsux : OpcodeRow := ⟨"stfsux", 0x7C00056E, 0xFC0007FF⟩

/-- The opcode table of R92. -/
def opcodeTable : List OpcodeRow := [rowStfs, rowStfsu, rowStfsx, rowStfsux]

/-- The row of the opcode table an instruction belongs to (R92). -/
def Instr.row : Instr → OpcodeRow
  | .stfs _ _ _ => rowStfs
  | .stfsu _ _ _ => rowStfsu
  | .stfsx _ _ _ => rowStfsx
  | .stfsux _ _ _ => rowStfsux

/-! ### Decoding -/

/-- The decoder's verdict on a word (30_encoding.md R88). What the machine does with each is R89 to R91. -/
inductive Verdict where
  /-- One of the four instructions, in a valid form. -/
  | instr (i : Instr)
  /-- `INVALID_FORM(m)`: an update form with `RA` = 0 (R90), with its fields. -/
  | invalidForm (i : Instr)
  /-- `RESERVED_RC(m)`: an X form with bit 31 = 1 (R89), with its fields. -/
  | reservedRc (i : Instr)
  /-- `NOT_IN_SCOPE`: a word of none of the four rows (R91). -/
  | notInScope
deriving DecidableEq, Repr

/-- An instruction's verdict by its form alone: the test of `RA` in R88. -/
def verdictOfForm (i : Instr) : Verdict :=
  if i.wellFormed then .instr i else .invalidForm i

/-- The decoding procedure of 30_encoding.md R88, total on all `2^32` words: bit 31 of an X form is tested
before `RA`. -/
def decode (w : Word) : Verdict :=
  if fieldOPCD w = opcdStfs then verdictOfForm (.stfs (fieldFS w) (fieldRA w) (fieldD w))
  else if fieldOPCD w = opcdStfsu then verdictOfForm (.stfsu (fieldFS w) (fieldRA w) (fieldD w))
  else if fieldOPCD w = opcdX ∧ fieldXO w = xoStfsx then
    if fieldRc w = 1 then .reservedRc (.stfsx (fieldFS w) (fieldRA w) (fieldRB w))
    else verdictOfForm (.stfsx (fieldFS w) (fieldRA w) (fieldRB w))
  else if fieldOPCD w = opcdX ∧ fieldXO w = xoStfsux then
    if fieldRc w = 1 then .reservedRc (.stfsux (fieldFS w) (fieldRA w) (fieldRB w))
    else verdictOfForm (.stfsux (fieldFS w) (fieldRA w) (fieldRB w))
  else .notInScope

/-- Why a list of bytes holds no instruction word. -/
inductive DecodeError where
  /-- Fewer than the 4 bytes every instruction has (30_encoding.md R80). -/
  | truncated
deriving DecidableEq, Repr

/-- Decoding the instruction at the head of a list of bytes, with the bytes that follow it: the first four
bytes, assembled most significant first (20_memory.md R55), then `decode`. -/
def decodeBytes : List Byte → Except DecodeError (Verdict × List Byte)
  | b0 :: b1 :: b2 :: b3 :: rest => .ok (decode (wordOfBytes [b0, b1, b2, b3]), rest)
  | _ => .error .truncated

/-- The instruction a word is by the opcode table alone (R92): also an update form with `RA` = 0, whose row
the word matches and which the machine, not the table, refuses (R90). -/
def Verdict.instr? : Verdict → Option Instr
  | .instr i => some i
  | .invalidForm i => some i
  | .reservedRc _ => none
  | .notInScope => none

/-! ### Encoding -/

/-- The word of an instruction (30_encoding.md R97), field after field from the most significant bit. -/
def encode : Instr → Word
  | .stfs fs ra d => opcdStfs ++ fieldOfReg fs ++ fieldOfReg ra ++ d
  | .stfsu fs ra d => opcdStfsu ++ fieldOfReg fs ++ fieldOfReg ra ++ d
  | .stfsx fs ra rb => opcdX ++ fieldOfReg fs ++ fieldOfReg ra ++ fieldOfReg rb ++ xoStfsx ++ 0#1
  | .stfsux fs ra rb => opcdX ++ fieldOfReg fs ++ fieldOfReg ra ++ fieldOfReg rb ++ xoStfsux ++ 0#1

/-- The bytes of an instruction in memory (20_memory.md R55). -/
def encodeBytes (i : Instr) : List Byte := bytesOfWord (encode i)

/-! ### Assembler text -/

/-- The mnemonic, the name of the instruction's row (30_encoding.md R96: four mnemonics and no alias). -/
def Instr.mnemonic : Instr → String
  | .stfs _ _ _ => "stfs"
  | .stfsu _ _ _ => "stfsu"
  | .stfsx _ _ _ => "stfsx"
  | .stfsux _ _ _ => "stfsux"

/-- A general register's name (30_encoding.md R95). -/
def gprText (r : RegNum) : String := "r" ++ toString r.val

/-- The `RA0` operand: the bare number 0 when the field is 0 (R95). -/
def ra0Text (r : RegNum) : String := if r = 0 then "0" else gprText r

/-- The operands as written: `FS, d(RA)` in form D and `FS, RA, RB` in form X (R95). -/
def Instr.operandText : Instr → String
  | .stfs fs ra d => "f" ++ toString fs.val ++ ", " ++ toString d.toInt ++ "(" ++ ra0Text ra ++ ")"
  | .stfsu fs ra d => "f" ++ toString fs.val ++ ", " ++ toString d.toInt ++ "(" ++ gprText ra ++ ")"
  | .stfsx fs ra rb => "f" ++ toString fs.val ++ ", " ++ ra0Text ra ++ ", " ++ gprText rb
  | .stfsux fs ra rb => "f" ++ toString fs.val ++ ", " ++ gprText ra ++ ", " ++ gprText rb

/-- The line of assembly language an instruction is (R95). -/
def Instr.text (i : Instr) : String := i.mnemonic ++ " " ++ i.operandText

/-! ### The host's question about a row -/

/-- The word whose low `nbits` bits are those of `w` and whose other bits are 0. -/
def tableWord (nbits w : Nat) : Word := BitVec.ofNat 32 (w % 2 ^ nbits)

/-- The instruction the decoder reads from an opcode-table word: the word laid out in memory order and given
to `decodeBytes`. -/
def decodeTableWord (nbits w : Nat) : Option Instr :=
  match decodeBytes (bytesOfWord (tableWord nbits w)) with
  | .ok (v, _) => v.instr?
  | .error _ => none

end Sys2Proof
end

