-- ==== Sys2Proof/Config.lean ====
section
/-! DEFINITION. What the spec takes as configuration (00_scope.md R6), as plain data, and the values the spec
leaves open as functions of an operand (free values: opaque constants without a body). -/

namespace Sys2Proof

/-- `FP_STORE_PROFILE`: which data conversion the four stores perform (41_single_from_double.md R121). -/
inductive FpStoreProfile where
  /-- Rules R122 to R131: IEEE 754 narrowing under `FPSCR.RN` and `FPSCR.NI`, flags returned (the default). -/
  | architectural
  /-- Rule R132: round to nearest, no flags. -/
  | snapshot
  /-- 93_implementation_defined.md G5: a field selection, no flags. -/
  | book
deriving DecidableEq, Repr

/-- `INVALID_FORM_RA0`: what an update form with `RA` = 0 does (30_encoding.md R90). -/
inductive InvalidFormRA0 where
  | refuse
  | snapshot
deriving DecidableEq, Repr

/-- `RC_RESERVED`: what an X-form word with bit 31 = 1 does (30_encoding.md R89). -/
inductive RcReserved where
  | refuse
  | ignore
deriving DecidableEq, Repr

/-- `EA_TOP_WRAP`: what a store with `EA > 0xFFFFFFFC` does (20_memory.md R56). -/
inductive EaTopWrap where
  | refuse
  | wrap
deriving DecidableEq, Repr

/-- `CI_MISALIGNED`: what a misaligned store to cache-inhibited storage does (20_memory.md R58). -/
inductive CiMisaligned where
  | fault
  | perform
deriving DecidableEq, Repr

/-- `NAN_NARROW`: which binary32 quiet NaN a NaN operand stores (41_single_from_double.md R124). -/
inductive NanNarrow where
  /-- The sign and the 22 payload bits are a free value (`Config.nanFree`). -/
  | unspecified
  /-- The recommended value of R124: the sign and the high payload bits are kept. -/
  | recommended
deriving DecidableEq, Repr

/-- A range of addresses `base .. base + size - 1`. -/
structure Region where
  base : Nat
  size : Nat
deriving DecidableEq, Repr

/-- The address lies in the range. -/
def Region.contains (r : Region) (a : Nat) : Bool :=
  decide (r.base ≤ a) && decide (a < r.base + r.size)

/-- The parameters of 00_scope.md R6 that are not one fixed number. They are fixed for a machine: no step
changes them. The platform's predicates on addresses (`Mapped`, `CacheInhibited`) and the program text are
lists of ranges; every predicate on 32-bit addresses is such a list. -/
structure Config where
  /-- `FP_STORE_PROFILE` (R121). -/
  profile : FpStoreProfile
  /-- `INVALID_FORM_RA0` (R90). -/
  invalidFormRA0 : InvalidFormRA0
  /-- `RC_RESERVED` (R89). -/
  rcReserved : RcReserved
  /-- `EA_TOP_WRAP` (R56). -/
  eaTopWrap : EaTopWrap
  /-- `CI_MISALIGNED` (R58). -/
  ciMisaligned : CiMisaligned
  /-- `NAN_NARROW` (R124). -/
  nanNarrow : NanNarrow
  /-- The addresses `Mapped` holds of (R62). -/
  mappedRegions : List Region
  /-- The addresses `CacheInhibited` holds of (R58). -/
  cacheInhibitedRegions : List Region
  /-- The program text: the address ranges the launch declares as code (10_state.md R38, R68). -/
  textRegions : List Region
  /-- `RESERVATION_GRANULE` is `2 ^ granuleLog2` bytes (R66). -/
  granuleLog2 : Nat
deriving DecidableEq, Repr

namespace Config

/-- `RESERVATION_GRANULE`, a power of two (00_scope.md R6). -/
def granuleSize (c : Config) : Nat := 2 ^ c.granuleLog2

/-- The limit R6 sets on `RESERVATION_GRANULE`: at least 4 bytes, and no larger than the address space. -/
abbrev wf (c : Config) : Prop := 2 ≤ c.granuleLog2 ∧ c.granuleLog2 ≤ 32

/-- The defaults of 00_scope.md R6, on a platform where every address is mapped and none is
cache-inhibited (the configuration 95_test_vectors.md opens with), with no program text declared.
DESIGN CHOICE (log 6): the granule of 4 bytes, the least R6 allows. -/
def standard : Config where
  profile := .architectural
  invalidFormRA0 := .refuse
  rcReserved := .refuse
  eaTopWrap := .refuse
  ciMisaligned := .fault
  nanNarrow := .unspecified
  mappedRegions := [⟨0, 0x100000000⟩]
  cacheInhibitedRegions := []
  textRegions := []
  granuleLog2 := 2

/-- FREE VALUE (log 9): the sign bit (bit 22) and the 22 payload bits of the quiet NaN that `NAN_NARROW`
gives for a NaN operand (41_single_from_double.md R124: "an open function"). -/
opaque nanFree : Dword → BitVec 23

/-- FREE VALUE (log 10): the word the `book` profile stores for an operand of magnitude below `2^-149`
that is not zero (93_implementation_defined.md G5: "w <- undefined", "any value"). -/
opaque bookUndefined : Dword → Word

end Config

end Sys2Proof
end

