-- ==== Sys2Proof/Machine/State.lean ====
section
/-! DEFINITION. The machine's state as plain data (10_state.md), the reasons a step can stop
(60_exceptions.md R147, R156), and the state after reset. -/

namespace Sys2Proof.Machine

/-! ### Why a step stops -/

/-- The two exceptions the source names (60_exceptions.md R142), with what `raise` reports of each. -/
inductive Exception where
  /-- Floating-Point Unavailable: one of the four instructions with `MSR.FP` = 0; no argument (R140). -/
  | floatingPointUnavailable
  /-- Alignment: a misaligned store to cache-inhibited storage, with its effective address (R141). -/
  | alignment (ea : Addr)
deriving DecidableEq, Repr

/-- The machine stops and the state stays as it was: the outcomes `fault` and `stuck` of 60_exceptions.md R156,
and two fetches that have no bytes. -/
inductive Fault where
  /-- Raised by the four instructions: an exception, terminal because no source says where a handler is
  (60_exceptions.md R146, log 11). Safe: no further step is defined from it. -/
  | raised (e : Exception)
  /-- Answered by the four instructions: a byte of the store is not mapped and the agent is stuck
  (20_memory.md R62, log 12). Safe. -/
  | unmappedStore (ea : Addr)
  /-- Answered by the fetch: a byte of the instruction word is not mapped (log 13). Safe. -/
  | unmappedFetch (pc : Addr)
  /-- Answered by the fetch: a byte of the instruction word was never written, so it holds no value the
  spec gives (10_state.md R40, log 7). Safe. -/
  | unwrittenFetch (pc : Addr)
deriving DecidableEq, Repr

/-- The machine gives the step no meaning: the outcome `refuse` of 60_exceptions.md R156. Every refusal is
safe: nothing is proved of a run that is refused. -/
inductive Refusal where
  /-- Answered by `exec` for an instruction without a meaning; no instruction is left so. -/
  | notModelled (mnemonic : String)
  /-- Answered by the fetch: `pc` is not a multiple of 4 (10_state.md R28, 20_memory.md R59). -/
  | pcMisaligned
  /-- Answered by the fetch: a byte of the instruction word has been stored to by the run
  (20_memory.md R68, log 14). -/
  | fetchOfStoredBytes
  /-- Answered by the step: the word is none of the four instructions (30_encoding.md R91). -/
  | notInScope
  /-- Answered by the step: an X form with bit 31 = 1 under `RC_RESERVED = refuse` (30_encoding.md R89). -/
  | reservedRc
  /-- Answered by the update forms: `RA` = 0 under `INVALID_FORM_RA0 = refuse` (30_encoding.md R90). -/
  | invalidForm
  /-- Answered by the four instructions: `pc + 4` does not fit in 32 bits (10_state.md R28, log 15). -/
  | pcTop
  /-- Answered by the four instructions: `EA > 0xFFFFFFFC` under `EA_TOP_WRAP = refuse` (20_memory.md R56). -/
  | eaTop
  /-- Answered by the four instructions: a byte of the store lies in the program text (20_memory.md R68). -/
  | storeToCode
  /-- Answered by the four instructions: the conversion sets a flag whose enable is on
  (60_exceptions.md R145, `FP_ENABLED_TRAPS = refuse`, log 17). -/
  | enabledTrap
deriving DecidableEq, Repr

/-- A reason to stop: a fault or a refusal. -/
inductive Stop where
  | fault (f : Fault)
  | refused (r : Refusal)
deriving DecidableEq, Repr

/-! ### Registers -/

/-- The rounding modes `FPSCR.RN` selects (10_state.md R32), as an enumeration: no instruction in scope reads
or writes the two-bit encoding. -/
inductive RoundingMode where
  | nearest
  | zero
  | pinf
  | minf
deriving DecidableEq, Repr

/-- The four status flags of FPSCR the stores can set (10_state.md R30, R31); also the set of flags a
conversion returns (41_single_from_double.md R121). -/
structure FpFlags where
  /-- Inexact. -/
  xx : Bool
  /-- Overflow. -/
  ox : Bool
  /-- Underflow. -/
  ux : Bool
  /-- Invalid operation, signalling NaN. -/
  vxsnan : Bool
deriving DecidableEq, Repr

/-- The enables of the four flags' exceptions. PRESUMED (log 17): the source names none; their names and
existence are 93_implementation_defined.md G1, and they are carried so that a trap they would cause is refused
(60_exceptions.md R145). -/
structure FpEnables where
  /-- Enable of `XX`. -/
  xe : Bool
  /-- Enable of `OX`. -/
  oe : Bool
  /-- Enable of `UX`. -/
  ue : Bool
  /-- Enable of `VXSNAN` (an invalid operation). -/
  ve : Bool
deriving DecidableEq, Repr

/-- FPSCR, the floating-point status and control register, as named fields (10_state.md R31). -/
structure Fpscr where
  /-- `RN`, the rounding mode (R32). -/
  rn : RoundingMode
  /-- `NI`: results below the binary32 minimum normal are flushed to zero (R33). -/
  ni : Bool
  /-- `XX`, `OX`, `UX`, `VXSNAN` (R30). -/
  flags : FpFlags
  /-- The enables (60_exceptions.md R145). -/
  enables : FpEnables
deriving DecidableEq, Repr

/-- MSR, the machine state register: the one field the source names (10_state.md R34). -/
structure Msr where
  /-- `FP`: the floating-point instructions are available. -/
  fp : Bool
deriving DecidableEq, Repr

/-! ### Memory and reservations -/

/-- Byte-addressed memory (10_state.md R36, 20_memory.md R51): the bytes that hold a value, by address. An
address that is not listed holds no value the spec gives (R40, log 7). -/
abbrev Memory := List Host.Cell

/-- The canonical form of memory: addresses strictly rising and below `2^32`. (No entry is redundant, because
an unlisted address has no value.) -/
abbrev Memory.wf (m : Memory) : Prop :=
  m.Pairwise (fun c d => c.1 < d.1) ∧ ∀ c ∈ m, c.1 < 2 ^ 32

/-- A load reservation (10_state.md R37): agent `agent` holds the block of `RESERVATION_GRANULE` bytes at
address `granule`. -/
structure Reservation where
  agent : Nat
  granule : Nat
deriving DecidableEq, Repr

/-- The order in which the reservation set is listed. -/
abbrev Reservation.before (r q : Reservation) : Prop :=
  r.agent < q.agent ∨ (r.agent = q.agent ∧ r.granule < q.granule)

/-! ### State -/

/-- The state of the machine with its one agent (00_scope.md R12, R13). -/
structure State where
  /-- `r0` to `r31` (10_state.md R20). -/
  gpr : Vector Dword 32
  /-- `f0` to `f31`, binary64 images (R24). -/
  fpr : Vector Dword 32
  /-- The program counter (R27, R28). -/
  pc : Addr
  /-- The machine state register (R34). -/
  msr : Msr
  /-- The floating-point status and control register (R31). -/
  fpscr : Fpscr
  /-- Memory (R36). -/
  mem : Memory
  /-- `RES`, the load reservations of every agent (R37), as a list in the order of `Reservation.before`. -/
  res : List Reservation
  /-- The model's own field (log 14): the addresses the run has stored to, strictly rising. An instruction is
  not fetched from one of them (20_memory.md R68). -/
  written : List Nat
  /-- The parameters of 00_scope.md R6: an argument of the model, which no step changes (log 1). -/
  cfg : Config
deriving DecidableEq, Repr

/-- The outcome of one step. -/
abbrev Result := Host.Outcome State Fault Refusal

/-- The result of a step that stops. -/
def Stop.toResult : Stop → Result
  | .fault f => .fault f
  | .refused r => .refused r

/-- The result of an instruction: the first reason to stop if there is one, and otherwise the completed state
(60_exceptions.md R146, R156: an instruction that stops has changed nothing). -/
def finish (stop : Option Stop) (done : State) : Result :=
  match stop with
  | none => .next done
  | some x => x.toResult

/-! ### Reset -/

/-- The state after reset. The source states no reset value (10_state.md R40); every value here is the model's
(DESIGN CHOICE, log 2 to log 6), taken from the launch states of 95_test_vectors.md where it has one and zero
otherwise. -/
def State.reset : State where
  gpr := Vector.replicate 32 0
  fpr := Vector.replicate 32 0
  pc := 0x00010000
  msr := ⟨true⟩
  fpscr :=
    { rn := .nearest
      ni := false
      flags := ⟨false, false, false, false⟩
      enables := ⟨false, false, false, false⟩ }
  mem := []
  res := []
  written := []
  cfg := Config.standard

end Sys2Proof.Machine
end

