-- ==== Sys2Proof/Machine/Flags.lean ====
section
/-! DEFINITION. The FPSCR flag computations: which flags are set, that they are sticky, and which of them would
trap (10_state.md R30, 41_single_from_double.md R131, 60_exceptions.md R145). -/

namespace Sys2Proof.Machine

/-- No flag. -/
def FpFlags.none : FpFlags := ⟨false, false, false, false⟩
/-- `{XX}`. -/
def FpFlags.inexact : FpFlags := ⟨true, false, false, false⟩
/-- `{OX, XX}`. -/
def FpFlags.overflow : FpFlags := ⟨true, true, false, false⟩
/-- `{UX, XX}`. -/
def FpFlags.underflow : FpFlags := ⟨true, false, true, false⟩
/-- `{VXSNAN}`. -/
def FpFlags.invalid : FpFlags := ⟨false, false, false, true⟩

/-- The union of two sets of flags. -/
def FpFlags.union (f g : FpFlags) : FpFlags :=
  ⟨f.xx || g.xx, f.ox || g.ox, f.ux || g.ux, f.vxsnan || g.vxsnan⟩

/-- The flags a conversion returns are OR-ed into FPSCR (41_single_from_double.md R131): a flag that is 1 stays
1, and every other field is unchanged (10_state.md R31). -/
def Fpscr.raise (r : Fpscr) (f : FpFlags) : Fpscr := { r with flags := r.flags.union f }

/-- A conversion sets a flag whose enable is on (60_exceptions.md R145). -/
def FpEnables.trapOn (e : FpEnables) (f : FpFlags) : Bool :=
  (e.xe && f.xx) || (e.oe && f.ox) || (e.ue && f.ux) || (e.ve && f.vxsnan)

end Sys2Proof.Machine
end

