-- ==== Sys2Proof/Machine/SingleFromDouble.lean ====
section
/-! DEFINITION. `SingleFromDouble`, the conversion of a binary64 image to the binary32 image a store writes and
the flags it returns (41_single_from_double.md), in its three profiles. -/

namespace Sys2Proof.Machine

/-! ### The binary64 image (R120) -/

/-- The sign `b[63]`. -/
def signOf (b : Dword) : Bool := b.getLsbD 63
/-- The biased exponent `b[62:52]`. -/
def exponentOf (b : Dword) : Nat := (b.extractLsb' 52 11).toNat
/-- The fraction `b[51:0]`. -/
def fractionOf (b : Dword) : Nat := (b.extractLsb' 0 52).toNat

/-- The classes of a binary64 image. -/
inductive FpClass where
  | zero
  | denormal
  | normal
  | infinity
  | quietNaN
  | signallingNaN
deriving DecidableEq, Repr

/-- The class of a binary64 image (R120). -/
def classify (b : Dword) : FpClass :=
  if exponentOf b = 0 then
    if fractionOf b = 0 then .zero else .denormal
  else if exponentOf b = 2047 then
    if fractionOf b = 0 then .infinity
    else if b.getLsbD 51 then .quietNaN else .signallingNaN
  else .normal

/-- The binary32 image of a sign and a 31-bit magnitude (R125 step 11). -/
def packSingle (s : Bool) (mag : Nat) : Word := BitVec.ofBool s ++ BitVec.ofNat 31 mag

/-- The magnitude image of the binary32 infinity (R120). -/
def infinityMag : Nat := 0x7F800000
/-- The magnitude image of the binary32 maximum finite number (R120). -/
def maxFiniteMag : Nat := 0x7F7FFFFF

/-! ### NaN (R124) -/

/-- The quiet NaN with a given sign and payload: exponent 255, the quiet bit, 22 payload bits. -/
def quietSingle (sign : BitVec 1) (payload : BitVec 22) : Word := sign ++ 0x1FF#9 ++ payload

/-- `NAN_NARROW(b)`: a binary32 quiet NaN, whose sign and payload are free unless the recommended value is
configured (R124, log 9). -/
def nanNarrow (mode : NanNarrow) (b : Dword) : Word :=
  match mode with
  | .unspecified =>
    quietSingle ((Config.nanFree b).extractLsb' 22 1) ((Config.nanFree b).extractLsb' 0 22)
  | .recommended => quietSingle (b.extractLsb' 63 1) (b.extractLsb' 29 22)

/-! ### The architectural profile (R122 to R131) -/

/-- Whether the kept bits are incremented (R125 step 7): `lo` the kept bits, `rem` the bits dropped, `half` half
a unit of the last kept place. -/
def roundsUp (rn : RoundingMode) (s : Bool) (lo rem half : Nat) : Bool :=
  match rn with
  | .nearest => decide (half < rem) || (decide (rem = half) && decide (lo % 2 = 1))
  | .zero => false
  | .pinf => !s && decide (rem ≠ 0)
  | .minf => s && decide (rem ≠ 0)

/-- The magnitude of an overflowed result (R125 step 10, R127): infinity, or the maximum finite number in the
modes that round toward it. -/
def overflowMag (rn : RoundingMode) (s : Bool) : Nat :=
  match rn with
  | .nearest => infinityMag
  | .zero => maxFiniteMag
  | .pinf => if s then maxFiniteMag else infinityMag
  | .minf => if s then infinityMag else maxFiniteMag

/-- The number of low significand bits that the result does not keep (R125 step 2). -/
def dropCount (E : Int) : Nat := if E < -126 then 29 + (-126 - E).toNat else 29

/-- The kept bits after rounding (R125 steps 3 to 8). -/
def roundedBits (rn : RoundingMode) (s : Bool) (sig shift : Nat) : Nat :=
  let lo := sig >>> shift
  let rem := sig % 2 ^ shift
  lo + (if roundsUp rn s lo rem (2 ^ (shift - 1)) then 1 else 0)

/-- The narrowing of a finite operand that is not zero, of sign `s` and magnitude `sig * 2^(E-52)` (R125). -/
def narrowFinite (rn : RoundingMode) (ni s : Bool) (sig : Nat) (E : Int) : Word × FpFlags :=
  let tiny := decide (E < -126)
  if tiny && ni then (packSingle s 0, FpFlags.underflow)
  else
    let shift := dropCount E
    let inexact := decide (sig % 2 ^ shift ≠ 0)
    let r := roundedBits rn s sig shift
    if tiny then (packSingle s r, if inexact then FpFlags.underflow else FpFlags.none)
    else
      let mag := ((E + 127).toNat <<< 23) + r - 2 ^ 23
      if mag ≥ infinityMag then (packSingle s (overflowMag rn s), FpFlags.overflow)
      else (packSingle s mag, if inexact then FpFlags.inexact else FpFlags.none)

/-- `SFD` in the `architectural` profile (R122): by the operand's class, rule R123, R124 or R125. -/
def sfdArchitectural (mode : NanNarrow) (rn : RoundingMode) (ni : Bool) (b : Dword) : Word × FpFlags :=
  match classify b with
  | .zero => (packSingle (signOf b) 0, FpFlags.none)
  | .infinity => (packSingle (signOf b) infinityMag, FpFlags.none)
  | .quietNaN => (nanNarrow mode b, FpFlags.none)
  | .signallingNaN => (nanNarrow mode b, FpFlags.invalid)
  | .denormal => narrowFinite rn ni (signOf b) (fractionOf b) (-1022)
  | .normal => narrowFinite rn ni (signOf b) (2 ^ 52 + fractionOf b) ((exponentOf b : Int) - 1023)

/-! ### The other profiles -/

/-- `SFD` in the `snapshot` profile (R132): the word of the architectural conversion to nearest without
flushing, and no flag. -/
def sfdSnapshot (mode : NanNarrow) (b : Dword) : Word × FpFlags :=
  ((sfdArchitectural mode .nearest false b).1, FpFlags.none)

/-- `SFD` in the `book` profile (93_implementation_defined.md G5): a selection of fields, and no flag; for a
magnitude below `2^-149` that is not zero the word is a free value (log 10). -/
def sfdBook (b : Dword) : Word × FpFlags :=
  let e := exponentOf b
  let w : Word :=
    if 896 < e ∨ b.extractLsb' 0 63 = 0 then b.extractLsb' 62 2 ++ b.extractLsb' 29 30
    else if 874 ≤ e then
      b.extractLsb' 63 1 ++ 0#8 ++ BitVec.ofNat 23 ((2 ^ 52 + fractionOf b) >>> (926 - e))
    else Config.bookUndefined b
  (w, FpFlags.none)

/-- `SFD(rn, ni, b)` under the configured profile (R121). -/
def sfd (c : Config) (rn : RoundingMode) (ni : Bool) (b : Dword) : Word × FpFlags :=
  match c.profile with
  | .architectural => sfdArchitectural c.nanNarrow rn ni b
  | .snapshot => sfdSnapshot c.nanNarrow b
  | .book => sfdBook b

end Sys2Proof.Machine
end

