-- ==== Sys2Proof/Machine/Ops.lean ====
section
/-! DEFINITION. The named operations over memory, registers, reservations and exceptions, the instruction fetch,
and the two halves of `StoreSingle` (20_memory.md, 60_exceptions.md, 40_fp_store_single.md R100, R101). -/

namespace Sys2Proof.Machine

/-! ### Memory: bytes -/

/-- The byte at an address, if one is listed. -/
def readByte : Memory → Nat → Option Byte
  | [], _ => none
  | (k, b) :: rest, a => if a = k then some b else readByte rest a

/-- Memory with a byte written; the canonical form is kept. -/
def writeByte : Memory → Nat → Byte → Memory
  | [], a, v => [(a, v)]
  | (k, b) :: rest, a, v =>
    if a < k then (a, v) :: (k, b) :: rest
    else if a = k then (a, v) :: rest
    else (k, b) :: writeByte rest a v

/-- The bytes at `a`, `a + 1`, … of a list, each address modulo `2^32` (20_memory.md R52, R56). -/
def writeBytes (m : Memory) (a : Addr) : List Byte → Memory
  | [] => m
  | b :: bs => writeBytes (writeByte m a.toNat b) (a + 1) bs

/-- `MemWrite(addr, 4, w)`: the most significant byte at the lowest address (R52). -/
def memWrite (m : Memory) (a : Addr) (w : Word) : Memory := writeBytes m a (bytesOfWord w)

/-- The `n` bytes at `a`, `a + 1`, …, if each has a value. -/
def readBytes (m : Memory) (a : Addr) : Nat → Option (List Byte)
  | 0 => some []
  | n + 1 => do
    let b ← readByte m a.toNat
    let bs ← readBytes m (a + 1) n
    pure (b :: bs)

/-- `MemRead(addr, n)`: the number assembled with the byte at the lowest address most significant (R53). -/
def memRead (m : Memory) (a : Addr) (n : Nat) : Option Nat := (readBytes m a n).map numberOfBytes

/-! ### Address sets -/

/-- The four addresses of a store or of an instruction word at `a`, modulo `2^32` (R52, R56). -/
def lanes (a : Addr) : List Addr := [a, a + 1, a + 2, a + 3]

/-- An address lies in one of the ranges. -/
def inRegions (rs : List Region) (a : Addr) : Bool := rs.any (fun r => r.contains a.toNat)

/-- `Mapped(addr)` (R62). -/
def mapped (s : State) (a : Addr) : Bool := inRegions s.cfg.mappedRegions a
/-- `CacheInhibited(addr)` (R58). -/
def cacheInhibited (s : State) (a : Addr) : Bool := inRegions s.cfg.cacheInhibitedRegions a
/-- The address lies in the program text (R68). -/
def inText (s : State) (a : Addr) : Bool := inRegions s.cfg.textRegions a

/-- `a[1:0] != 0` (R57). -/
def misaligned (a : Addr) : Bool := decide (a.toNat % 4 ≠ 0)

/-- A strictly rising list of addresses with one more. -/
def insertAddr : List Nat → Nat → List Nat
  | [], a => [a]
  | k :: rest, a =>
    if a < k then a :: k :: rest else if a = k then k :: rest else k :: insertAddr rest a

/-- The addresses stored to, with the bytes of a store at `a`. -/
def noteStore (l : List Nat) (a : Addr) : List Nat :=
  (lanes a).foldl (fun acc x => insertAddr acc x.toNat) l

/-! ### Registers -/

/-- `x[i]` (00_scope.md R10, 10_state.md R20). -/
def readGpr (s : State) (r : RegNum) : Dword := s.gpr[r.val]
/-- `x[i] <- v`: all 64 bits of any register, `r0` included (10_state.md R21, R22). -/
def writeGpr (s : State) (r : RegNum) (v : Dword) : State := { s with gpr := s.gpr.set r.val v }
/-- `f[i]` (10_state.md R24). -/
def readFpr (s : State) (r : RegNum) : Dword := s.fpr[r.val]
/-- `pc <- pc + 4` (10_state.md R27). -/
def advancePc (s : State) : State := { s with pc := s.pc + 4 }

/-! ### Reservations -/

/-- `granule(p)`: the block of `RESERVATION_GRANULE` bytes that holds an address (20_memory.md R66). -/
def granuleOf (c : Config) (a : Addr) : Nat := a.toNat - a.toNat % c.granuleSize

/-- A reservation's granule holds one of the four bytes at `a`. -/
def killedBy (c : Config) (a : Addr) (r : Reservation) : Bool :=
  (lanes a).any (fun x => granuleOf c x == r.granule)

/-- `ResKill(addr, 4)`: every reservation, of every agent, on a granule that holds a byte written is removed
(R66). -/
def resKill (c : Config) (l : List Reservation) (a : Addr) : List Reservation :=
  l.filter (fun r => !killedBy c a r)

/-! ### Exceptions -/

/-- `raise <Exception>(info)` (60_exceptions.md R146): the instruction ends with no effect and the step's
outcome is the fault. No source gives a register that is saved, a mode that changes or a handler's address,
and none describes a return (R148), so there is no state to enter (log 11). -/
def raise (e : Exception) : Stop := .fault (.raised e)

/-! ### Fetching and accepting an instruction -/

/-- The conditions under which no word is fetched at `pc` (10_state.md R28, 20_memory.md R59, R68;
log 13, log 14). DESIGN CHOICE (log 33): a word with a byte that is not mapped and a byte that the run has stored to
is the first of the two. -/
def fetchStop (s : State) : Option Stop :=
  if misaligned s.pc then some (.refused .pcMisaligned)
  else if (lanes s.pc).any (fun a => !mapped s a) then some (.fault (.unmappedFetch s.pc))
  else if (lanes s.pc).any (fun a => s.written.contains a.toNat) then some (.refused .fetchOfStoredBytes)
  else none

/-- `insn <- MemRead(pc, 4)`, decoded (40_fp_store_single.md R100, 20_memory.md R55). DESIGN CHOICE (log 33): that a byte
holds no value is tested after the conditions of `fetchStop`. -/
def fetchVerdict (s : State) : Except Stop Verdict :=
  match fetchStop s with
  | some x => .error x
  | none =>
    match readBytes s.mem s.pc 4 with
    | none => .error (.fault (.unwrittenFetch s.pc))
    | some bs =>
      match decodeBytes bs with
      | .ok (v, _) => .ok v
      | .error .truncated => .error (.fault (.unwrittenFetch s.pc))

/-- What the machine executes for a verdict (R100): a reserved word is refused or executed as if bit 31 were 0
by `RC_RESERVED` (30_encoding.md R89), a word outside the table is refused (R91), and an invalid form goes to
its instruction's meaning, which applies `INVALID_FORM_RA0` (R90, log 16). -/
def accept (s : State) : Verdict → Except Stop Instr
  | .instr i => .ok i
  | .invalidForm i => .ok i
  | .reservedRc i =>
    match s.cfg.rcReserved with
    | .refuse => .error (.refused .reservedRc)
    | .ignore => .ok i
  | .notInScope => .error (.refused .notInScope)

/-- The instruction the step at this state executes (R100). -/
def fetchInstr (s : State) : Except Stop Instr :=
  match fetchVerdict s with
  | .error x => .error x
  | .ok v => accept s v

/-! ### The common conditions and effect of the four stores -/

/-- The form an update instruction refuses: `RA` = 0 under `INVALID_FORM_RA0 = refuse` (30_encoding.md R90). -/
def updateFormStop (s : State) (ra : RegNum) : Option Stop :=
  if ra = 0 ∧ s.cfg.invalidFormRA0 = .refuse then some (.refused .invalidForm) else none

/-- The condition tested before an operand is read: the floating-point unit is enabled (60_exceptions.md R140). -/
def fpStop (s : State) : Option Stop :=
  if s.msr.fp = false then some (raise .floatingPointUnavailable) else none

/-- The condition of `pc <- pc + 4`, the last line of each instruction: `pc + 4` fits in 32 bits
(10_state.md R28, log 15). -/
def pcStop (s : State) : Option Stop :=
  if 0xFFFFFFFC ≤ s.pc.toNat then some (.refused .pcTop) else none

/-- The word and the flags of a store of `f[FS]` (40_fp_store_single.md R101 step 5). -/
def converted (s : State) (fs : RegNum) : Word × FpFlags :=
  sfd s.cfg s.fpscr.rn s.fpscr.ni (readFpr s fs)

/-- Steps 1 to 5 of `StoreSingle(EA, FS)` (R101): the first condition that ends the instruction, in the order
of 60_exceptions.md R147; then the trap of an enabled flag (60_exceptions.md R145, log 17). -/
def storeStop (s : State) (ea : Addr) (fs : RegNum) : Option Stop :=
  if 0xFFFFFFFC < ea.toNat ∧ s.cfg.eaTopWrap = .refuse then some (.refused .eaTop)
  else if misaligned ea ∧ s.cfg.ciMisaligned = .fault ∧ (lanes ea).any (cacheInhibited s) then
    some (raise (.alignment ea))
  else if (lanes ea).any (fun a => !mapped s a) then some (.fault (.unmappedStore ea))
  else if (lanes ea).any (inText s) then some (.refused .storeToCode)
  else if s.fpscr.enables.trapOn (converted s fs).2 then some (.refused .enabledTrap)
  else none

/-- Steps 5 to 8 of `StoreSingle(EA, FS)` (R101): the conversion, the reservation kill, the memory write and
the flags. -/
def storeEffect (s : State) (ea : Addr) (fs : RegNum) : State :=
  { s with
    res := resKill s.cfg s.res ea
    mem := memWrite s.mem ea (converted s fs).1
    fpscr := s.fpscr.raise (converted s fs).2
    written := noteStore s.written ea }

end Sys2Proof.Machine
end

