-- ==== Sys2Proof/Machine/Operands.lean ====
section
/-! DEFINITION. The operand forms and the four effective addresses (10_state.md R21, 30_encoding.md R84, R85,
20_memory.md R50, 40_fp_store_single.md R107). -/

namespace Sys2Proof.Machine

/-- `RA0val(RA)`: the number zero when the field is 0, else the register (10_state.md R21). -/
def ra0Val (s : State) (ra : RegNum) : Dword := if ra = 0 then 0 else readGpr s ra

/-- `RAval(RA)`: the register, `r0` included (10_state.md R21). -/
def raVal (s : State) (ra : RegNum) : Dword := readGpr s ra

/-- `RBval(RB)`: the register, `r0` included (10_state.md R21). -/
def rbVal (s : State) (rb : RegNum) : Dword := readGpr s rb

/-- `sext_64(D)`: the displacement (30_encoding.md R84). -/
def dispVal (d : BitVec 16) : Dword := d.signExtend 64

/-- The effective address: the low 32 bits of the 64-bit sum (20_memory.md R50). -/
def eaOf (base offset : Dword) : Addr := (base + offset).setWidth 32

/-- The effective address of `stfs` (40_fp_store_single.md R102). -/
def eaStfs (s : State) (ra : RegNum) (d : BitVec 16) : Addr := eaOf (ra0Val s ra) (dispVal d)

/-- The effective address of `stfsu` (R104). -/
def eaStfsu (s : State) (ra : RegNum) (d : BitVec 16) : Addr := eaOf (raVal s ra) (dispVal d)

/-- The effective address of `stfsx` (R105). -/
def eaStfsx (s : State) (ra rb : RegNum) : Addr := eaOf (ra0Val s ra) (rbVal s rb)

/-- The effective address of `stfsux` (R106). -/
def eaStfsux (s : State) (ra rb : RegNum) : Addr := eaOf (raVal s ra) (rbVal s rb)

/-- The address an instruction stores to. -/
def storeAddress (i : Instr) (s : State) : Addr :=
  match i with
  | .stfs _ ra d => eaStfs s ra d
  | .stfsu _ ra d => eaStfsu s ra d
  | .stfsx _ ra rb => eaStfsx s ra rb
  | .stfsux _ ra rb => eaStfsux s ra rb

/-- The value an update form writes to `RA`: `zext_64(EA)` (R104, R106; log 20). -/
def updateVal (ea : Addr) : Dword := ea.setWidth 64

end Sys2Proof.Machine
end

