-- ==== Sys2Proof/Machine/StoreSingle.lean ====
section
/-! DEFINITION. The meanings of the four Store Floating-Point Single instructions (40_fp_store_single.md R102 to
R106), over the two shared shapes of a store: plain, and with update. -/

namespace Sys2Proof.Machine

/-- A store without update: the tests of 60_exceptions.md R147 in order, then the store and `pc <- pc + 4`. -/
def storePlain (s : State) (ea : Addr) (fs : RegNum) : Result :=
  finish ((fpStop s).or ((storeStop s ea fs).or (pcStop s))) (advancePc (storeEffect s ea fs))

/-- A store with update: also the test of the form, and after the store `x[RA] <- zext_64(EA)`
(70_reset_and_hazards.md R174). -/
def storeUpdate (s : State) (ra : RegNum) (ea : Addr) (fs : RegNum) : Result :=
  finish ((updateFormStop s ra).or ((fpStop s).or ((storeStop s ea fs).or (pcStop s))))
    (advancePc (writeGpr (storeEffect s ea fs) ra (updateVal ea)))

/-- `stfs FS, d(RA)` (R102). -/
def execStfs (fs ra : RegNum) (d : BitVec 16) (s : State) : Result :=
  storePlain s (eaStfs s ra d) fs

/-- `stfsu FS, d(RA)` (R104). -/
def execStfsu (fs ra : RegNum) (d : BitVec 16) (s : State) : Result :=
  storeUpdate s ra (eaStfsu s ra d) fs

/-- `stfsx FS, RA, RB` (R105). -/
def execStfsx (fs ra rb : RegNum) (s : State) : Result :=
  storePlain s (eaStfsx s ra rb) fs

/-- `stfsux FS, RA, RB` (R106): both operands are read before any write. -/
def execStfsux (fs ra rb : RegNum) (s : State) : Result :=
  storeUpdate s ra (eaStfsux s ra rb) fs

end Sys2Proof.Machine
end

