-- ==== Sys2Proof/Machine/Dispatch.lean ====
section
/-! DEFINITION. One arm per constructor of Instr: each instruction's meaning. -/

namespace Sys2Proof.Machine

/-- The effect of one instruction (40_fp_store_single.md R100: "execute m"). -/
def exec (i : Instr) (s : State) : Host.Outcome State Fault Refusal :=
  match i with
  | .stfs fs ra d => Sys2Proof.Machine.execStfs fs ra d s
  | .stfsu fs ra d => Sys2Proof.Machine.execStfsu fs ra d s
  | .stfsx fs ra rb => Sys2Proof.Machine.execStfsx fs ra rb s
  | .stfsux fs ra rb => Sys2Proof.Machine.execStfsux fs ra rb s

end Sys2Proof.Machine
end

