-- ==== Sys2Proof/Machine/Step.lean ====
section
/-! DEFINITION. One step of the machine (40_fp_store_single.md R100), and a state in which a given word is the
next instruction. -/

namespace Sys2Proof.Machine

/-- One step (R100): fetch and decode the word at `pc`, then execute its instruction. Each instruction advances
`pc` itself (R27). -/
def step (s : State) : Host.Outcome State Fault Refusal :=
  match fetchInstr s with
  | .error x => x.toResult
  | .ok i => exec i s

/-- The state with a word placed at `pc` as one more instruction of the program text (log 8): its four bytes,
their range added to the text, and their addresses taken off the list of bytes the run has stored to. -/
def State.withFetchWord (s : State) (nbits w : Nat) : State :=
  { s with
    mem := memWrite s.mem s.pc (tableWord nbits w)
    written := s.written.filter (fun a => !((lanes s.pc).any (fun x => x.toNat == a)))
    cfg := { s.cfg with textRegions := ⟨s.pc.toNat, 4⟩ :: s.cfg.textRegions } }

end Sys2Proof.Machine
end

