-- ==== Sys2Proof/Safety.lean ====
section
/-! DEFINITION. What claims are stated in: when an instruction can complete, what a completed store has done, the
values of floating-point images, the invariant of the state, and when a run is over. -/

namespace Sys2Proof.Machine

/-! ### When an instruction completes -/

/-- The conditions on the state alone (10_state.md R28, 70_reset_and_hazards.md R171): the floating-point unit
is available and `pc + 4` fits in 32 bits. -/
def Ready (s : State) : Prop := s.msr.fp = true ∧ s.pc.toNat < 0xFFFFFFFC

/-- The form is one the machine executes: a valid form, or `INVALID_FORM_RA0 = snapshot`
(30_encoding.md R90). -/
def FormRuns (i : Instr) (s : State) : Prop :=
  i.wellFormed = true ∨ s.cfg.invalidFormRA0 = .snapshot

/-- The address is one of the four bytes stored at `ea`, modulo `2^32` (20_memory.md R52, R56). -/
def InStore (ea a : Addr) : Prop := ∃ k : Nat, k < 4 ∧ a = ea + BitVec.ofNat 32 k

/-- The conditions under which a store of `f[fs]` at `ea` is performed (20_memory.md R56, R58, R62, R68,
60_exceptions.md R145). -/
structure StoreCanRun (s : State) (ea : Addr) (fs : RegNum) : Prop where
  /-- The store does not pass the top of the address space, or wraps there (R56). -/
  top : ea.toNat ≤ 0xFFFFFFFC ∨ s.cfg.eaTopWrap = .wrap
  /-- The store is aligned, or on ordinary storage, or `CI_MISALIGNED = perform` (R57, R58). -/
  alignment : ea.toNat % 4 = 0 ∨ (∀ a, InStore ea a → cacheInhibited s a = false) ∨ s.cfg.ciMisaligned = .perform
  /-- Every byte is mapped (R62). -/
  isMapped : ∀ a, InStore ea a → mapped s a = true
  /-- No byte lies in the program text (R68). -/
  notText : ∀ a, InStore ea a → inText s a = false
  /-- No flag the conversion sets has its enable on (R145). -/
  noTrap : s.fpscr.enables.trapOn (sfd s.cfg s.fpscr.rn s.fpscr.ni (readFpr s fs)).2 = false

/-- The instruction completes at this state: conditions on the state and the operands alone. -/
structure CanRun (i : Instr) (s : State) : Prop where
  ready : Ready s
  form : FormRuns i s
  store : StoreCanRun s (storeAddress i s) i.fs

/-! ### What a completed store has done -/

/-- What `StoreSingle(ea, fs)` and `pc <- pc + 4` have done between `s` and `t`, apart from the general
registers, and that they have done nothing else (40_fp_store_single.md R101, R103; 20_memory.md R52, R66). -/
structure StoreDone (s t : State) (ea : Addr) (fs : RegNum) : Prop where
  /-- The four bytes hold the converted word, most significant byte at the lowest address. -/
  byte0 : readByte t.mem ea.toNat = some ((sfd s.cfg s.fpscr.rn s.fpscr.ni (readFpr s fs)).1.extractLsb' 24 8)
  byte1 : readByte t.mem (ea + 1).toNat = some ((sfd s.cfg s.fpscr.rn s.fpscr.ni (readFpr s fs)).1.extractLsb' 16 8)
  byte2 : readByte t.mem (ea + 2).toNat = some ((sfd s.cfg s.fpscr.rn s.fpscr.ni (readFpr s fs)).1.extractLsb' 8 8)
  byte3 : readByte t.mem (ea + 3).toNat = some ((sfd s.cfg s.fpscr.rn s.fpscr.ni (readFpr s fs)).1.extractLsb' 0 8)
  /-- Every other byte of memory is unchanged. -/
  others : ∀ n : Nat, (∀ a, InStore ea a → n ≠ a.toNat) → readByte t.mem n = readByte s.mem n
  /-- The reservations that remain are those whose granule holds none of the four bytes. -/
  reservations : ∀ r, r ∈ t.res ↔ r ∈ s.res ∧
    ¬ ∃ a, InStore ea a ∧ a.toNat - a.toNat % s.cfg.granuleSize = r.granule
  /-- Each flag of FPSCR is set if it was set or the conversion returns it. -/
  xx : t.fpscr.flags.xx = (s.fpscr.flags.xx || (sfd s.cfg s.fpscr.rn s.fpscr.ni (readFpr s fs)).2.xx)
  ox : t.fpscr.flags.ox = (s.fpscr.flags.ox || (sfd s.cfg s.fpscr.rn s.fpscr.ni (readFpr s fs)).2.ox)
  ux : t.fpscr.flags.ux = (s.fpscr.flags.ux || (sfd s.cfg s.fpscr.rn s.fpscr.ni (readFpr s fs)).2.ux)
  vxsnan : t.fpscr.flags.vxsnan =
    (s.fpscr.flags.vxsnan || (sfd s.cfg s.fpscr.rn s.fpscr.ni (readFpr s fs)).2.vxsnan)
  /-- The other fields of FPSCR are unchanged. -/
  rn : t.fpscr.rn = s.fpscr.rn
  ni : t.fpscr.ni = s.fpscr.ni
  enables : t.fpscr.enables = s.fpscr.enables
  /-- `pc` is the address of the next word. -/
  pc : t.pc = s.pc + 4
  /-- The floating-point registers, MSR and the configuration are unchanged. -/
  fpr : t.fpr = s.fpr
  msr : t.msr = s.msr
  cfg : t.cfg = s.cfg
  /-- The model's own record of stored addresses gains the four bytes (log 14). -/
  written : ∀ n, n ∈ t.written ↔ n ∈ s.written ∨ ∃ a, InStore ea a ∧ n = a.toNat

/-! ### Values of floating-point images -/

/-- The magnitude of a finite binary64 image, in units of `2^-1074` (41_single_from_double.md R120): a whole
number for every finite image. -/
def doubleMagUnits (b : Dword) : Nat :=
  if exponentOf b = 0 then fractionOf b else (2 ^ 52 + fractionOf b) * 2 ^ (exponentOf b - 1)

/-- The value of a finite binary64 image, in units of `2^-1074`. -/
def doubleUnits (b : Dword) : Int :=
  if signOf b then -(doubleMagUnits b : Int) else (doubleMagUnits b : Int)

/-- The biased exponent `w[30:23]` and the fraction `w[22:0]` of a binary32 image (R120). -/
def singleExponent (w : Word) : Nat := (w.extractLsb' 23 8).toNat
def singleFraction (w : Word) : Nat := (w.extractLsb' 0 23).toNat

/-- The magnitude of a finite binary32 image, in units of `2^-1074` (R120): `k * 2^-149` is `k * 2^925` units. -/
def singleMagUnits (w : Word) : Nat :=
  if singleExponent w = 0 then singleFraction w * 2 ^ 925
  else (2 ^ 23 + singleFraction w) * 2 ^ (singleExponent w + 924)

/-- The value of a finite binary32 image, in units of `2^-1074`. -/
def singleUnits (w : Word) : Int :=
  if w.getLsbD 31 then -(singleMagUnits w : Int) else (singleMagUnits w : Int)

/-- A finite binary64 image: neither an infinity nor a NaN. -/
def DoubleFinite (b : Dword) : Prop := exponentOf b ≠ 2047

/-- A finite binary32 image. -/
def SingleFinite (w : Word) : Prop := singleExponent w ≠ 255

/-- One unit in the last place of the binary32 result of an operand, in units of `2^-1074`: 24 significant bits
for a magnitude of at least `2^-126`, and the denormal spacing `2^-149` below. -/
def ulpUnits (b : Dword) : Nat := 2 ^ max (exponentOf b + 28) 925

/-- The agreement core of 41_single_from_double.md R133, (a) to (c): zero, infinity, or exactly a binary32
normal number. -/
def InCore (b : Dword) : Prop :=
  b.extractLsb' 0 63 = 0 ∨ (exponentOf b = 2047 ∧ fractionOf b = 0) ∨
    (897 ≤ exponentOf b ∧ exponentOf b ≤ 1150 ∧ fractionOf b % 2 ^ 29 = 0)

/-- R133 (d): exactly a binary32 denormal number. -/
def IsSingleDenormal (b : Dword) : Prop :=
  874 ≤ exponentOf b ∧ exponentOf b ≤ 896 ∧ (2 ^ 52 + fractionOf b) % 2 ^ (926 - exponentOf b) = 0

/-! ### The invariant of the state -/

/-- What every step keeps: memory, the reservation set and the record of stored addresses are in canonical form;
each reservation names a whole granule; every byte stored to holds a value and lies outside the program text
(10_state.md R38, 20_memory.md R68); `pc` is a multiple of 4 (10_state.md R28). -/
structure State.Inv (s : State) : Prop where
  mem : Memory.wf s.mem
  res : s.res.Pairwise Reservation.before
  granule : ∀ r ∈ s.res, r.granule % s.cfg.granuleSize = 0
  writtenSorted : s.written.Pairwise (· < ·)
  writtenHeld : ∀ n ∈ s.written, n < 2 ^ 32 ∧ readByte s.mem n ≠ none
  textUnstored : ∀ n ∈ s.written, inText s (BitVec.ofNat 32 n) = false
  pcAligned : s.pc.toNat % 4 = 0
  config : s.cfg.wf

/-! ### Runs -/

/-- A step that is taken. -/
def Safe (s : State) : Prop := ∃ t, step s = .next t

/-- The code range `[base, base + 4k)` a launch declares (70_reset_and_hazards.md R177). -/
structure CodeRange where
  base : Addr
  words : Nat
deriving DecidableEq, Repr

/-- The run of a code range is over and final: `pc` is the end of the range (R177, the spec's convention). -/
def isFinal (c : CodeRange) (s : State) : Bool := s.pc.toNat == c.base.toNat + 4 * c.words

end Sys2Proof.Machine
end

