-- ==== Sys2Proof/Certificates/Slice0/Obligations.lean ====
section
/-! DEFINITION. The statements about the model, for the provers. Each docstring names the rules of the spec it rests
on; "derived" statements rest on inferences or decisions the spec marks as its own, or on the log entry named. -/

open Sys2Proof Sys2Proof.Machine

/-! ### Encoding -/

/-- Words written out from the encodings decode to the instructions and verdicts they stand for
(95_test_vectors.md V1). -/
def Obligations.SpecWordsDecode : Prop :=
  decode 0xD0230008 = .instr (.stfs 1 3 0x0008) ∧
  decode 0xD3E1FFFC = .instr (.stfs 31 1 0xFFFC) ∧
  decode 0xD421FFF8 = .instr (.stfsu 1 1 0xFFF8) ∧
  decode 0xD4200004 = .invalidForm (.stfsu 1 0 0x0004) ∧
  decode 0x7C65352E = .instr (.stfsx 3 5 6) ∧
  decode 0x7C65352F = .reservedRc (.stfsx 3 5 6) ∧
  decode 0x7C87456E = .instr (.stfsux 4 7 8) ∧
  decode 0x7C20256F = .reservedRc (.stfsux 1 0 4) ∧
  decode 0x7C20256E = .invalidForm (.stfsux 1 0 4) ∧
  decode 0x7C0005AE = .notInScope ∧
  decode 0x7800052E = .notInScope

/-- Every field of a word is the bits 30_encoding.md R83 gives it. -/
def Obligations.FieldsAreTheirBits : Prop :=
  ∀ w : Word,
    (fieldOPCD w).toNat = w.toNat / 2 ^ 26 ∧
    (fieldFS w).val = w.toNat / 2 ^ 21 % 32 ∧
    (fieldRA w).val = w.toNat / 2 ^ 16 % 32 ∧
    (fieldRB w).val = w.toNat / 2 ^ 11 % 32 ∧
    (fieldD w).toNat = w.toNat % 2 ^ 16 ∧
    (fieldXO w).toNat = w.toNat / 2 % 1024 ∧
    (fieldRc w).toNat = w.toNat % 2

/-- The decoding procedure of 30_encoding.md R88, by the masks it is written with, on every word. -/
def Obligations.DecodeByMasks : Prop :=
  ∀ w : Word, decode w =
    if w &&& 0xFC000000 = 0xD0000000 then .instr (.stfs (fieldFS w) (fieldRA w) (fieldD w))
    else if w &&& 0xFC000000 = 0xD4000000 then
      if fieldRA w = 0 then .invalidForm (.stfsu (fieldFS w) (fieldRA w) (fieldD w))
      else .instr (.stfsu (fieldFS w) (fieldRA w) (fieldD w))
    else if w &&& 0xFC0007FE = 0x7C00052E then
      if fieldRc w = 1 then .reservedRc (.stfsx (fieldFS w) (fieldRA w) (fieldRB w))
      else .instr (.stfsx (fieldFS w) (fieldRA w) (fieldRB w))
    else if w &&& 0xFC0007FE = 0x7C00056E then
      if fieldRc w = 1 then .reservedRc (.stfsux (fieldFS w) (fieldRA w) (fieldRB w))
      else if fieldRA w = 0 then .invalidForm (.stfsux (fieldFS w) (fieldRA w) (fieldRB w))
      else .instr (.stfsux (fieldFS w) (fieldRA w) (fieldRB w))
    else .notInScope

/-- A word is an instruction of a row of the opcode table exactly when `(w AND mask) == match`, and the rows are
pairwise disjoint (30_encoding.md R92). -/
def Obligations.OpcodeRowsAreExact : Prop :=
  (∀ w : Word,
    (w &&& 0xFC000000 = 0xD0000000 ↔ ∃ fs ra d, (decode w).instr? = some (.stfs fs ra d)) ∧
    (w &&& 0xFC000000 = 0xD4000000 ↔ ∃ fs ra d, (decode w).instr? = some (.stfsu fs ra d)) ∧
    (w &&& 0xFC0007FF = 0x7C00052E ↔ ∃ fs ra rb, (decode w).instr? = some (.stfsx fs ra rb)) ∧
    (w &&& 0xFC0007FF = 0x7C00056E ↔ ∃ fs ra rb, (decode w).instr? = some (.stfsux fs ra rb))) ∧
  ∀ w : Word, ∀ p ∈ opcodeTable, ∀ q ∈ opcodeTable, p.accepts w = true → q.accepts w = true → p = q

/-- Decoding the encoding of any valid instruction, as a word and as bytes in memory order with any bytes after
it, gives the instruction back with every operand (30_encoding.md R97, an inference of the spec). -/
def Obligations.EncodeThenDecode : Prop :=
  ∀ (i : Instr) (rest : List Byte), i.wellFormed = true →
    decode (encode i) = .instr i ∧ decodeBytes (encodeBytes i ++ rest) = .ok (.instr i, rest)

/-- The converse: a word that decodes to an instruction is that instruction's encoding, and the instruction is a
valid form; so each word has one meaning and each valid instruction one word. -/
def Obligations.DecodeThenEncode : Prop :=
  ∀ (w : Word) (i : Instr), decode w = .instr i → i.wellFormed = true ∧ encode i = w

/-! ### Operands and addresses -/

/-- The displacement is the 16-bit field read as a two's-complement number, unscaled (30_encoding.md R84). -/
def Obligations.DisplacementIsSigned : Prop :=
  (∀ d : BitVec 16,
    (dispVal d).toInt = d.toInt ∧ -32768 ≤ d.toInt ∧ d.toInt ≤ 32767 ∧ (dispVal d).setWidth 16 = d ∧
      ∀ k, 16 ≤ k → k < 64 → (dispVal d).getLsbD k = d.getLsbD 15) ∧
  dispVal 0x0008 = 0x0000000000000008 ∧ dispVal 0xFFFC = 0xFFFFFFFFFFFFFFFC ∧
  dispVal 0x8000 = 0xFFFFFFFFFFFF8000 ∧ dispVal 0x7FFF = 0x0000000000007FFF

/-- The operand forms of 10_state.md R21: no register is hardwired, `r0` included; a zero `RA` means the number
zero in `stfs` and `stfsx` and the register `r0` in the update forms, and `RB` always means the register. The
addresses also rest on the sign extension of 30_encoding.md R84 and on the truncation of 20_memory.md R50 to 32 bits
(decision D3 of the spec, log 20), as 40_fp_store_single.md R102 to R106 use them. -/
def Obligations.OperandForms : Prop :=
  (∀ (s : State) (r : RegNum) (v : Dword), readGpr (writeGpr s r v) r = v) ∧
  (∀ (s : State) (fs ra : RegNum) (d : BitVec 16),
    storeAddress (.stfs fs ra d) s = ((if ra = 0 then 0 else readGpr s ra) + d.signExtend 64).setWidth 32 ∧
    storeAddress (.stfsu fs ra d) s = (readGpr s ra + d.signExtend 64).setWidth 32) ∧
  (∀ (s : State) (fs ra rb : RegNum),
    storeAddress (.stfsx fs ra rb) s = ((if ra = 0 then 0 else readGpr s ra) + readGpr s rb).setWidth 32 ∧
    storeAddress (.stfsux fs ra rb) s = (readGpr s ra + readGpr s rb).setWidth 32)

/-- The effective address is the low 32 bits of the 64-bit sum, which are the 32-bit sum of the low halves
(20_memory.md R50, 40_fp_store_single.md R107). -/
def Obligations.EffectiveAddressIsLowHalf : Prop :=
  ∀ base offset : Dword,
    (eaOf base offset).toNat = (base.toNat + offset.toNat) % 2 ^ 64 % 2 ^ 32 ∧
    eaOf base offset = base.setWidth 32 + offset.setWidth 32

/-! ### The four instructions complete -/

/-- `stfs` (40_fp_store_single.md R102) completes whenever it can run: the store is done at its address, and no
general register changes. -/
def Obligations.StfsCompletes : Prop :=
  ∀ (fs ra : RegNum) (d : BitVec 16) (s : State), CanRun (.stfs fs ra d) s →
    ∃ t, exec (.stfs fs ra d) s = .next t ∧
      StoreDone s t (((if ra = 0 then 0 else readGpr s ra) + d.signExtend 64).setWidth 32) fs ∧ t.gpr = s.gpr

/-- `stfsu` (40_fp_store_single.md R104) completes whenever it can run: the store is done at its address, `RA`
receives the address zero-extended (log 20), and no other general register changes. `RA` = 0, which runs under
`INVALID_FORM_RA0 = snapshot` only, is the register `r0`. -/
def Obligations.StfsuCompletes : Prop :=
  ∀ (fs ra : RegNum) (d : BitVec 16) (s : State), CanRun (.stfsu fs ra d) s →
    ∃ t, exec (.stfsu fs ra d) s = .next t ∧
      StoreDone s t ((readGpr s ra + d.signExtend 64).setWidth 32) fs ∧
      readGpr t ra = ((readGpr s ra + d.signExtend 64).setWidth 32).setWidth 64 ∧
      ∀ q, q ≠ ra → readGpr t q = readGpr s q

/-- `stfsx` (40_fp_store_single.md R105) completes whenever it can run: the store is done at its address, and no
general register changes. -/
def Obligations.StfsxCompletes : Prop :=
  ∀ (fs ra rb : RegNum) (s : State), CanRun (.stfsx fs ra rb) s →
    ∃ t, exec (.stfsx fs ra rb) s = .next t ∧
      StoreDone s t (((if ra = 0 then 0 else readGpr s ra) + readGpr s rb).setWidth 32) fs ∧ t.gpr = s.gpr

/-- `stfsux` (40_fp_store_single.md R106) completes whenever it can run: the store is done at its address, `RA`
receives the address zero-extended (log 20), and no other general register changes; `RB` may be `RA`. -/
def Obligations.StfsuxCompletes : Prop :=
  ∀ (fs ra rb : RegNum) (s : State), CanRun (.stfsux fs ra rb) s →
    ∃ t, exec (.stfsux fs ra rb) s = .next t ∧
      StoreDone s t ((readGpr s ra + readGpr s rb).setWidth 32) fs ∧
      readGpr t ra = ((readGpr s ra + readGpr s rb).setWidth 32).setWidth 64 ∧
      ∀ q, q ≠ ra → readGpr t q = readGpr s q

/-- An instruction completes under exactly the conditions of `CanRun`: none of the conditions of
60_exceptions.md R147 applies, no enabled trap would be taken and `pc + 4` fits (R156 "complete"). -/
def Obligations.CompletesExactlyWhen : Prop :=
  ∀ (i : Instr) (s : State), (∃ t, exec i s = .next t) ↔ CanRun i s

/-! ### Where an instruction stops -/

/-- With `MSR.FP` = 0 each of the four instructions raises Floating-Point Unavailable, whatever its operands: the
test comes after decoding (an invalid form that is refused stays refused) and before everything else
(60_exceptions.md R140). -/
def Obligations.FloatingPointUnavailable : Prop :=
  (∀ (i : Instr) (s : State), s.msr.fp = false → FormRuns i s →
    exec i s = .fault (.raised .floatingPointUnavailable)) ∧
  (∀ (i : Instr) (s : State), exec i s = .fault (.raised .floatingPointUnavailable) → s.msr.fp = false)

/-- The Alignment exception (60_exceptions.md R141): raised, with the effective address, for every misaligned store
of the family to cache-inhibited storage under `CI_MISALIGNED = fault`; never under `perform`, and never on
ordinary storage. -/
def Obligations.AlignmentException : Prop :=
  (∀ (i : Instr) (s : State), s.msr.fp = true → FormRuns i s →
    ((storeAddress i s).toNat ≤ 0xFFFFFFFC ∨ s.cfg.eaTopWrap = .wrap) →
    (storeAddress i s).toNat % 4 ≠ 0 → (∃ a, InStore (storeAddress i s) a ∧ cacheInhibited s a = true) →
    s.cfg.ciMisaligned = .fault →
    exec i s = .fault (.raised (.alignment (storeAddress i s)))) ∧
  (∀ (i : Instr) (s : State) (ea : Addr), exec i s = .fault (.raised (.alignment ea)) →
    ea = storeAddress i s ∧ ea.toNat % 4 ≠ 0 ∧ (∃ a, InStore ea a ∧ cacheInhibited s a = true) ∧
      s.cfg.ciMisaligned = .fault)

/-- A misaligned store on ordinary storage is performed like an aligned one, at its own address: no exception, no
address bit ignored, no data rotated (20_memory.md R57). -/
def Obligations.MisalignedStoreIsPerformed : Prop :=
  ∀ (i : Instr) (s : State), Ready s → FormRuns i s → (storeAddress i s).toNat % 4 ≠ 0 →
    (∀ a, InStore (storeAddress i s) a → cacheInhibited s a = false) →
    ((storeAddress i s).toNat ≤ 0xFFFFFFFC ∨ s.cfg.eaTopWrap = .wrap) →
    (∀ a, InStore (storeAddress i s) a → mapped s a = true ∧ inText s a = false) →
    s.fpscr.enables.trapOn (sfd s.cfg s.fpscr.rn s.fpscr.ni (readFpr s i.fs)).2 = false →
    ∃ t, exec i s = .next t ∧ StoreDone s t (storeAddress i s) i.fs

/-- The outcome of an instruction that stops: the first condition that applies, in the order of
60_exceptions.md R147 rows 4 to 9 (a decision of the spec, D21), then the enabled trap (R145, log 17), then `pc + 4`
(10_state.md R28, log 15). -/
def Obligations.OutcomesInOrder : Prop :=
  ∀ (i : Instr) (s : State) (ea : Addr), ea = storeAddress i s →
    (¬ FormRuns i s → exec i s = .refused .invalidForm) ∧
    (FormRuns i s →
      (s.msr.fp = false → exec i s = .fault (.raised .floatingPointUnavailable)) ∧
      (s.msr.fp = true →
        (¬ (ea.toNat ≤ 0xFFFFFFFC ∨ s.cfg.eaTopWrap = .wrap) → exec i s = .refused .eaTop) ∧
        ((ea.toNat ≤ 0xFFFFFFFC ∨ s.cfg.eaTopWrap = .wrap) →
          ((ea.toNat % 4 ≠ 0 ∧ s.cfg.ciMisaligned = .fault ∧ ∃ a, InStore ea a ∧ cacheInhibited s a = true) →
            exec i s = .fault (.raised (.alignment ea))) ∧
          (¬ (ea.toNat % 4 ≠ 0 ∧ s.cfg.ciMisaligned = .fault ∧ ∃ a, InStore ea a ∧ cacheInhibited s a = true) →
            ((∃ a, InStore ea a ∧ mapped s a = false) → exec i s = .fault (.unmappedStore ea)) ∧
            ((∀ a, InStore ea a → mapped s a = true) →
              ((∃ a, InStore ea a ∧ inText s a = true) → exec i s = .refused .storeToCode) ∧
              ((∀ a, InStore ea a → inText s a = false) →
                (s.fpscr.enables.trapOn (sfd s.cfg s.fpscr.rn s.fpscr.ni (readFpr s i.fs)).2 = true →
                  exec i s = .refused .enabledTrap) ∧
                (s.fpscr.enables.trapOn (sfd s.cfg s.fpscr.rn s.fpscr.ni (readFpr s i.fs)).2 = false →
                  0xFFFFFFFC ≤ s.pc.toNat → exec i s = .refused .pcTop)))))))

/-! ### The step -/

/-- The word at `pc` can be fetched, and is `w` (20_memory.md R55, R59, R68; log 13, log 14). -/
def WordAtPc (s : State) (w : Word) : Prop :=
  s.pc.toNat % 4 = 0 ∧ (∀ a, InStore s.pc a → mapped s a = true ∧ a.toNat ∉ s.written) ∧
    memRead s.mem s.pc 4 = some w.toNat

/-- A step runs the decoded instruction: when the word at `pc` decodes to a valid instruction, the step is `exec` of
it at that state, with nothing added around it (40_fp_store_single.md R100). -/
def Obligations.StepRunsDecodedInstruction : Prop :=
  ∀ (s : State) (w : Word) (i : Instr), WordAtPc s w → decode w = .instr i → step s = exec i s

/-- What a step does with every other verdict (40_fp_store_single.md R100, 30_encoding.md R89, R90, R91). -/
def Obligations.StepOnOtherVerdicts : Prop :=
  ∀ (s : State) (w : Word), WordAtPc s w →
    (decode w = .notInScope → step s = .refused .notInScope) ∧
    (∀ i, decode w = .reservedRc i →
      (s.cfg.rcReserved = .refuse → step s = .refused .reservedRc) ∧
      (s.cfg.rcReserved = .ignore → step s = exec i s)) ∧
    (∀ i, decode w = .invalidForm i →
      (s.cfg.invalidFormRA0 = .refuse → step s = .refused .invalidForm) ∧
      (s.cfg.invalidFormRA0 = .snapshot → step s = exec i s))

/-- Where a step stops without a word: a `pc` that is not a multiple of 4 (10_state.md R28, 20_memory.md R59), a
word that is not mapped (log 13), that the run has stored to (20_memory.md R68, log 14), or that holds no value
(log 7). The spec ranks none of the last three, and their order is the model's choice (log 33). -/
def Obligations.StepWithoutWord : Prop :=
  (∀ s : State, s.pc.toNat % 4 ≠ 0 → step s = .refused .pcMisaligned) ∧
  (∀ s : State, s.pc.toNat % 4 = 0 → (∃ a, InStore s.pc a ∧ mapped s a = false) →
    step s = .fault (.unmappedFetch s.pc)) ∧
  (∀ s : State, s.pc.toNat % 4 = 0 → (∀ a, InStore s.pc a → mapped s a = true) →
    (∃ a, InStore s.pc a ∧ a.toNat ∈ s.written) → step s = .refused .fetchOfStoredBytes) ∧
  (∀ s : State, s.pc.toNat % 4 = 0 → (∀ a, InStore s.pc a → mapped s a = true ∧ a.toNat ∉ s.written) →
    memRead s.mem s.pc 4 = none → step s = .fault (.unwrittenFetch s.pc))

/-- The step is taken from a launch state that meets the premises of 70_reset_and_hazards.md R171: the word at `pc`
decodes to a valid instruction, `MSR.FP` = 1, `pc + 4` fits, and the store can be performed. In the update forms
`RA` receives the 32-bit address zero-extended to 64 bits (40_fp_store_single.md R104, R106; decision D3 of the
spec, log 20). -/
def Obligations.LaunchPremisesSuffice : Prop :=
  ∀ (s : State) (w : Word) (i : Instr), WordAtPc s w → decode w = .instr i → Ready s →
    StoreCanRun s (storeAddress i s) i.fs →
    ∃ t, step s = .next t ∧ StoreDone s t (storeAddress i s) i.fs ∧
      (i.isUpdate = false → t.gpr = s.gpr) ∧
      (i.isUpdate = true → t.gpr = s.gpr.set i.ra.val ((storeAddress i s).setWidth 64))

/-- Every outcome of a step is a next state or a stop the model names: no instruction is left without a meaning, the
only exceptions are the two of 60_exceptions.md R142, and a stuck or refused step is one of R156 or of the fetch. -/
def Obligations.StepOutcomes : Prop :=
  ∀ s : State,
    (∃ t, step s = .next t) ∨
    step s = .fault (.raised .floatingPointUnavailable) ∨
    (∃ ea : Addr, ea.toNat % 4 ≠ 0 ∧ step s = .fault (.raised (.alignment ea))) ∨
    (∃ ea, step s = .fault (.unmappedStore ea)) ∨
    step s = .fault (.unmappedFetch s.pc) ∨ step s = .fault (.unwrittenFetch s.pc) ∨
    (∃ r, (∀ m, r ≠ .notModelled m) ∧ step s = .refused r)

/-- A word placed by `withFetchWord` is the word the next step fetches and decodes (log 8), from every state whose
`pc` is a multiple of 4 and mapped. -/
def Obligations.PlacedWordIsFetched : Prop :=
  ∀ (s : State) (nbits n : Nat), s.pc.toNat % 4 = 0 → (∀ a, InStore s.pc a → mapped s a = true) →
    fetchVerdict (s.withFetchWord nbits n) = .ok (decode (BitVec.ofNat 32 (n % 2 ^ nbits)))

/-! ### Memory -/

/-- `MemWrite` (20_memory.md R52): byte `i` of the list written goes to address `a + i`, every other address is
unchanged, and the bytes of a word are its bytes from the most significant. -/
def Obligations.MemWriteIsBigEndian : Prop :=
  (∀ (m : Memory) (a : Addr) (bs : List Byte), bs.length ≤ 2 ^ 32 →
    (∀ k, k < bs.length → readByte (writeBytes m a bs) (a + BitVec.ofNat 32 k).toNat = bs[k]?) ∧
    (∀ n, (∀ k, k < bs.length → n ≠ (a + BitVec.ofNat 32 k).toNat) →
      readByte (writeBytes m a bs) n = readByte m n)) ∧
  (∀ (m : Memory) (a : Addr) (w : Word),
    memWrite m a w = writeBytes m a (bytesOfWord w) ∧
    readByte (memWrite m a w) a.toNat = some (w.extractLsb' 24 8) ∧
    readByte (memWrite m a w) (a + 1).toNat = some (w.extractLsb' 16 8) ∧
    readByte (memWrite m a w) (a + 2).toNat = some (w.extractLsb' 8 8) ∧
    readByte (memWrite m a w) (a + 3).toNat = some (w.extractLsb' 0 8))

/-- The mixed-width view of a stored single (20_memory.md R53, R56): a 4-byte read at its address gives it back, and
the halfwords are its upper and lower halves. -/
def Obligations.MemReadAfterMemWrite : Prop :=
  ∀ (m : Memory) (a : Addr) (w : Word),
    memRead (memWrite m a w) a 4 = some w.toNat ∧
    memRead (memWrite m a w) a 2 = some (w.toNat / 2 ^ 16) ∧
    memRead (memWrite m a w) (a + 2) 2 = some (w.toNat % 2 ^ 16) ∧
    memRead (memWrite m a w) a 1 = some (w.toNat / 2 ^ 24)

/-- Each instruction makes exactly one data access, a 4-byte write, and reads no data memory (20_memory.md R60): a
completed instruction changes no byte outside its four, and from the same state with any other memory it
completes with the same registers, flags and four bytes. -/
def Obligations.OneFourByteAccess : Prop :=
  ∀ (i : Instr) (s t : State), exec i s = .next t →
    (∀ n : Nat, (∀ a, InStore (storeAddress i s) a → n ≠ a.toNat) → readByte t.mem n = readByte s.mem n) ∧
    ∀ m : Memory, ∃ t', exec i { s with mem := m } = .next t' ∧ { t' with mem := t.mem } = t ∧
      ∀ a, InStore (storeAddress i s) a → readByte t'.mem a.toNat = readByte t.mem a.toNat

/-- The stores of one agent are applied in program order, and the later one determines the bytes both write
(20_memory.md R64(a), (b)): after two stores the second one's four bytes are its own word, bytes of the first that the
second does not write are those the first left, and every other byte is that of the start. -/
def Obligations.LaterStoreWins : Prop :=
  ∀ (i j : Instr) (s t u : State), exec i s = .next t → exec j t = .next u →
    memRead u.mem (storeAddress j t) 4 =
      some (sfd s.cfg s.fpscr.rn s.fpscr.ni (readFpr s j.fs)).1.toNat ∧
    (∀ a, InStore (storeAddress i s) a → ¬ InStore (storeAddress j t) a →
      readByte u.mem a.toNat = readByte t.mem a.toNat) ∧
    (∀ n, (∀ a, InStore (storeAddress i s) a ∨ InStore (storeAddress j t) a → n ≠ a.toNat) →
      readByte u.mem n = readByte s.mem n)

/-- No step changes a byte of the program text, or the program text itself (10_state.md R38, 20_memory.md R68). -/
def Obligations.TextNeverChanges : Prop :=
  ∀ s t : State, step s = .next t → ∀ a, inText s a = true →
    readByte t.mem a.toNat = readByte s.mem a.toNat ∧ inText t a = true

/-- The reservation kills of 95_test_vectors.md V6: granules of 8 and of 128 bytes, an aligned and a straddling
store, the storer's own reservation included. -/
def Obligations.ReservationKillExamples : Prop :=
  resKill { Config.standard with granuleLog2 := 3 } [⟨0, 0x1000⟩, ⟨1, 0x1008⟩, ⟨1, 0x2000⟩] 0x1008 =
    [⟨0, 0x1000⟩, ⟨1, 0x2000⟩] ∧
  resKill { Config.standard with granuleLog2 := 3 } [⟨0, 0x1000⟩, ⟨1, 0x1008⟩, ⟨1, 0x2000⟩] 0x1006 =
    [⟨1, 0x2000⟩] ∧
  resKill { Config.standard with granuleLog2 := 7 } [⟨0, 0x1000⟩, ⟨1, 0x2000⟩] 0x1008 = [⟨1, 0x2000⟩] ∧
  resKill { Config.standard with granuleLog2 := 7 } [⟨0, 0x1000⟩, ⟨1, 0x2000⟩] 0x1006 = [⟨1, 0x2000⟩]

/-- After a completed store no reservation, of any agent, is left on a granule that holds one of its bytes, and every
other reservation is left, none added (20_memory.md R66, R67). -/
def Obligations.StoreKillsReservations : Prop :=
  ∀ (i : Instr) (s t : State), exec i s = .next t →
    (∀ r ∈ t.res, r ∈ s.res ∧
      ∀ a, InStore (storeAddress i s) a → a.toNat / s.cfg.granuleSize * s.cfg.granuleSize ≠ r.granule) ∧
    (∀ r ∈ s.res,
      (∀ a, InStore (storeAddress i s) a → a.toNat / s.cfg.granuleSize * s.cfg.granuleSize ≠ r.granule) →
      r ∈ t.res)

/-! ### Rules of the whole machine -/

/-- The floating-point registers (10_state.md R25): no instruction writes one, and each reads exactly `f[FS]`: the
four bytes stored and the flags raised are those of the conversion of `f[FS]` under the configured profile, and
with any other register changed, the instruction does the same. -/
def Obligations.OnlySourceFprMatters : Prop :=
  ∀ (i : Instr) (s t : State), exec i s = .next t →
    t.fpr = s.fpr ∧
    memRead t.mem (storeAddress i s) 4 = some (sfd s.cfg s.fpscr.rn s.fpscr.ni (readFpr s i.fs)).1.toNat ∧
    t.fpscr = s.fpscr.raise (sfd s.cfg s.fpscr.rn s.fpscr.ni (readFpr s i.fs)).2 ∧
    ∀ (q : RegNum) (v : Dword), q ≠ i.fs →
      exec i { s with fpr := s.fpr.set q.val v } = .next { t with fpr := t.fpr.set q.val v }

/-- The general registers an instruction reads, from the table of 10_state.md R22. -/
def gprsRead : Instr → List RegNum
  | .stfs _ ra _ => if ra = 0 then [] else [ra]
  | .stfsu _ ra _ => [ra]
  | .stfsx _ ra rb => if ra = 0 then [rb] else [ra, rb]
  | .stfsux _ ra rb => [ra, rb]

/-- The general registers an instruction writes, from the table of 10_state.md R22. -/
def gprsWritten : Instr → List RegNum
  | .stfs _ _ _ => []
  | .stfsu _ ra _ => [ra]
  | .stfsx _ _ _ => []
  | .stfsux _ ra _ => [ra]

/-- Access to the general registers is exactly the table of 10_state.md R22: a register not written keeps its value,
and with any register that is not read changed the instruction does the same. -/
def Obligations.GprAccessTable : Prop :=
  ∀ (i : Instr) (s t : State), exec i s = .next t →
    (∀ q, q ∉ gprsWritten i → readGpr t q = readGpr s q) ∧
    (∀ q ∈ gprsWritten i, readGpr t q = (storeAddress i s).setWidth 64) ∧
    ∀ (q : RegNum) (v : Dword), q ∉ gprsRead i → exec i (writeGpr s q v) = .next (writeGpr t q v)

/-- No step changes MSR, the configuration, or a control field of FPSCR (10_state.md R31, R34). -/
def Obligations.ControlStateNeverChanges : Prop :=
  ∀ s t : State, step s = .next t →
    t.msr = s.msr ∧ t.cfg = s.cfg ∧ t.fpscr.rn = s.fpscr.rn ∧ t.fpscr.ni = s.fpscr.ni ∧
      t.fpscr.enables = s.fpscr.enables

/-- The FPSCR flags are sticky: no step clears one, and outside the architectural profile no step writes one
(10_state.md R30). -/
def Obligations.FlagsAreSticky : Prop :=
  ∀ s t : State, step s = .next t →
    (s.fpscr.flags.xx = true → t.fpscr.flags.xx = true) ∧
    (s.fpscr.flags.ox = true → t.fpscr.flags.ox = true) ∧
    (s.fpscr.flags.ux = true → t.fpscr.flags.ux = true) ∧
    (s.fpscr.flags.vxsnan = true → t.fpscr.flags.vxsnan = true) ∧
    (s.cfg.profile ≠ .architectural → t.fpscr = s.fpscr)

/-- No instruction is a branch: a completed one leaves `pc` at the next word (10_state.md R27,
40_fp_store_single.md R108). That it does not wrap as a number rests on the refusal of 10_state.md R28 at the last
word of the address space (decision D5 of the spec, log 15). -/
def Obligations.EveryInstructionFallsThrough : Prop :=
  ∀ (i : Instr) (s t : State), exec i s = .next t → t.pc = s.pc + 4 ∧ t.pc.toNat = s.pc.toNat + 4

/-- A run is a straight line: after `k` steps from any state `pc` is `4k` further on, and the floating-point
registers, MSR and the configuration are those of the start (40_fp_store_single.md R108, 10_state.md R25). That `pc`
does not wrap as a number rests on the refusal of 10_state.md R28 at the last word of the address space (decision
D5 of the spec, log 15). -/
def Obligations.RunsAreStraightLines : Prop :=
  ∀ (k : Nat) (s t : State), Host.Core.run Sys2Proof.core k s = .next t →
    t.pc.toNat = s.pc.toNat + 4 * k ∧ t.fpr = s.fpr ∧ t.msr = s.msr ∧ t.cfg = s.cfg

/-- `RA` = `RB` in `stfsux` (40_fp_store_single.md R106, R109): the address is twice the old value, and the register
then receives it, with bits 63 to 32 zero (decision D3 of the spec, U15 of 93_implementation_defined.md, log 20). -/
def Obligations.OverlapReadsBeforeWrite : Prop :=
  ∀ (fs r : RegNum) (s t : State), exec (.stfsux fs r r) s = .next t →
    (storeAddress (.stfsux fs r r) s).toNat = 2 * (readGpr s r).toNat % 2 ^ 32 ∧
    (readGpr t r).toNat = 2 * (readGpr s r).toNat % 2 ^ 32

/-- Every form of store through the base register of an update form just completed starts from the address that form
wrote (20_memory.md R64(c), 40_fp_store_single.md R109), and an index that is that register is that address too.
`stfs` and `stfsx` name the register only when its number is not 0 (10_state.md R21). Addresses have 32 bits
(decision D3 of the spec, log 20). -/
def Obligations.NextStoreSeesUpdate : Prop :=
  ∀ (i : Instr) (s t : State), i.isUpdate = true → exec i s = .next t →
    (∀ (fs : RegNum) (d : BitVec 16),
      storeAddress (.stfsu fs i.ra d) t = storeAddress i s + d.signExtend 32 ∧
      (i.ra ≠ 0 → storeAddress (.stfs fs i.ra d) t = storeAddress i s + d.signExtend 32)) ∧
    ∀ fs rb : RegNum,
      storeAddress (.stfsux fs i.ra rb) t =
        storeAddress i s + (if rb = i.ra then storeAddress i s else (readGpr s rb).setWidth 32) ∧
      (i.ra ≠ 0 → storeAddress (.stfsx fs i.ra rb) t =
        storeAddress i s + (if rb = i.ra then storeAddress i s else (readGpr s rb).setWidth 32))

/-! ### The conversion -/

/-- Zeros and infinities are converted exactly, with no flag, in every rounding mode and for every `ni`
(41_single_from_double.md R123). -/
def Obligations.ZeroAndInfinityExact : Prop :=
  ∀ (mode : NanNarrow) (rn : RoundingMode) (ni s : Bool),
    sfdArchitectural mode rn ni (BitVec.ofBool s ++ 0#63) = (BitVec.ofBool s ++ 0#31, FpFlags.none) ∧
    sfdArchitectural mode rn ni (BitVec.ofBool s ++ 0x7FF#11 ++ 0#52) =
      (BitVec.ofBool s ++ 0xFF#8 ++ 0#23, FpFlags.none)

/-- A NaN is stored as a binary32 quiet NaN whatever `rn` and `ni` are, the flag set is `{VXSNAN}` for a signalling NaN
and empty for a quiet one, and the recommended narrowing keeps the sign and the high payload bits
(41_single_from_double.md R124). It holds for every value of the free sign and payload (log 9). -/
def Obligations.NanIsQuieted : Prop :=
  ∀ (mode : NanNarrow) (rn : RoundingMode) (ni : Bool) (b : Dword),
    exponentOf b = 2047 → fractionOf b ≠ 0 →
    (sfdArchitectural mode rn ni b).1.extractLsb' 23 8 = 0xFF ∧
    (sfdArchitectural mode rn ni b).1.getLsbD 22 = true ∧
    (sfdArchitectural mode rn ni b).2 = (if b.getLsbD 51 then FpFlags.none else FpFlags.invalid) ∧
    (mode = .recommended →
      (sfdArchitectural mode rn ni b).1 =
        ((b.extractLsb' 63 1).setWidth 32 <<< 31) ||| 0x7FC00000 ||| (b.extractLsb' 29 23).setWidth 32)

/-- `VXSNAN` is returned exactly for a signalling NaN, alone (41_single_from_double.md R129). -/
def Obligations.SignallingNanAlone : Prop :=
  ∀ (mode : NanNarrow) (rn : RoundingMode) (ni : Bool) (b : Dword),
    ((sfdArchitectural mode rn ni b).2.vxsnan = true ↔
      exponentOf b = 2047 ∧ fractionOf b ≠ 0 ∧ b.getLsbD 51 = false) ∧
    ((sfdArchitectural mode rn ni b).2.vxsnan = true →
      (sfdArchitectural mode rn ni b).2.xx = false ∧ (sfdArchitectural mode rn ni b).2.ox = false ∧
      (sfdArchitectural mode rn ni b).2.ux = false)

/-- `XX` is returned exactly when the stored single does not have the operand's value, for a finite operand, and never
for an infinity or a NaN (41_single_from_double.md R126; D22). -/
def Obligations.InexactIffValueDiffers : Prop :=
  ∀ (mode : NanNarrow) (rn : RoundingMode) (ni : Bool) (b : Dword),
    (DoubleFinite b →
      ((sfdArchitectural mode rn ni b).2.xx = true ↔
        ¬ (SingleFinite (sfdArchitectural mode rn ni b).1 ∧
          singleUnits (sfdArchitectural mode rn ni b).1 = doubleUnits b))) ∧
    (¬ DoubleFinite b → (sfdArchitectural mode rn ni b).2.xx = false)

/-- `UX` is returned exactly for a nonzero operand of magnitude below `2^-126` whose stored value differs from it
(41_single_from_double.md R128; D22). -/
def Obligations.UnderflowIffTinyAndDiffers : Prop :=
  ∀ (mode : NanNarrow) (rn : RoundingMode) (ni : Bool) (b : Dword),
    (sfdArchitectural mode rn ni b).2.ux = true ↔
      (0 < doubleMagUnits b ∧ doubleMagUnits b < 2 ^ 948 ∧ DoubleFinite b ∧
        singleUnits (sfdArchitectural mode rn ni b).1 ≠ doubleUnits b)

/-- With `ni` = 1 a nonzero operand of magnitude below `2^-126` is stored as a zero of its sign with `{UX, XX}` in every
rounding mode; `ni` has no effect on the others (41_single_from_double.md R130; D24). -/
def Obligations.FlushToZero : Prop :=
  ∀ (mode : NanNarrow) (rn : RoundingMode) (b : Dword),
    (0 < doubleMagUnits b → doubleMagUnits b < 2 ^ 948 →
      sfdArchitectural mode rn true b = (BitVec.ofBool (signOf b) ++ 0#31, FpFlags.underflow)) ∧
    (¬ (0 < doubleMagUnits b ∧ doubleMagUnits b < 2 ^ 948) →
      sfdArchitectural mode rn true b = sfdArchitectural mode rn false b)

/-- A finite stored single has the operand's sign and is a whole number of the operand's units in the last place; it lies
on the side of its operand that the rounding mode names, less than one such unit away, and under `nearest` at most
half a unit away, with an even last bit where two are equally near (41_single_from_double.md R125, 10_state.md R32;
decisions D22 and D26 of the spec, log 22). -/
def Obligations.RoundingIsDirected : Prop :=
  ∀ (mode : NanNarrow) (rn : RoundingMode) (b : Dword),
    DoubleFinite b → (sfdArchitectural mode rn false b).2.ox = false →
    (sfdArchitectural mode rn false b).1.getLsbD 31 = signOf b ∧
    singleMagUnits (sfdArchitectural mode rn false b).1 % ulpUnits b = 0 ∧
    SingleFinite (sfdArchitectural mode rn false b).1 ∧
    (rn = .zero →
      (singleUnits (sfdArchitectural mode rn false b).1).natAbs ≤ (doubleUnits b).natAbs) ∧
    (rn = .pinf → doubleUnits b ≤ singleUnits (sfdArchitectural mode rn false b).1) ∧
    (rn = .minf → singleUnits (sfdArchitectural mode rn false b).1 ≤ doubleUnits b) ∧
    (singleUnits (sfdArchitectural mode rn false b).1 - doubleUnits b).natAbs < ulpUnits b ∧
    (rn = .nearest →
      2 * (singleUnits (sfdArchitectural mode rn false b).1 - doubleUnits b).natAbs ≤ ulpUnits b) ∧
    (rn = .nearest →
      2 * (singleUnits (sfdArchitectural mode rn false b).1 - doubleUnits b).natAbs = ulpUnits b →
      (sfdArchitectural mode rn false b).1.getLsbD 0 = false)

/-- Where overflow begins, by the operand's magnitude image: at the midpoint above the maximum finite single for
`nearest`, at `2^128` for the modes that round its sign toward zero, and just above the maximum finite single
for the mode that rounds its sign away from zero (41_single_from_double.md R127; D27). -/
def Obligations.OverflowThreshold : Prop :=
  ∀ (mode : NanNarrow) (rn : RoundingMode) (ni : Bool) (b : Dword), DoubleFinite b →
    ((sfdArchitectural mode rn ni b).2.ox = true ↔
      match rn with
      | .nearest => 0x47EFFFFFF0000000 ≤ (b.setWidth 63).toNat
      | .zero => 0x47F0000000000000 ≤ (b.setWidth 63).toNat
      | .pinf => if signOf b then 0x47F0000000000000 ≤ (b.setWidth 63).toNat
          else 0x47EFFFFFE0000000 < (b.setWidth 63).toNat
      | .minf => if signOf b then 0x47EFFFFFE0000000 < (b.setWidth 63).toNat
          else 0x47F0000000000000 ≤ (b.setWidth 63).toNat)

/-- What an overflow stores: an infinity of the operand's sign, or the maximum finite number of its sign, by the
rounding mode; with exactly `{OX, XX}` (41_single_from_double.md R127; D27). -/
def Obligations.OverflowResult : Prop :=
  ∀ (mode : NanNarrow) (rn : RoundingMode) (ni : Bool) (b : Dword),
    (sfdArchitectural mode rn ni b).2.ox = true →
    (sfdArchitectural mode rn ni b).2 = FpFlags.overflow ∧
    (sfdArchitectural mode rn ni b).1 =
      BitVec.ofBool (signOf b) ++
        (if rn = .nearest ∨ (rn = .pinf ∧ signOf b = false) ∨ (rn = .minf ∧ signOf b = true) then
          0x7F800000#31 else 0x7F7FFFFF#31)

/-- The returned flag sets are exactly five: none, `{XX}`, `{OX, XX}`, `{UX, XX}` and `{VXSNAN}`
(41_single_from_double.md R131, an inference of the spec). -/
def Obligations.FlagSetsReturned : Prop :=
  ∀ f : FpFlags,
    (∃ mode rn ni b, (sfdArchitectural mode rn ni b).2 = f) ↔
      f = FpFlags.none ∨ f = FpFlags.inexact ∨ f = FpFlags.overflow ∨ f = FpFlags.underflow ∨ f = FpFlags.invalid

/-- The `snapshot` profile: the word of the architectural conversion to nearest with `ni` = 0, and no flag, whatever
`rn` and `ni` are (41_single_from_double.md R132). -/
def Obligations.SnapshotProfileRoundsToNearest : Prop :=
  ∀ (c : Config) (rn : RoundingMode) (ni : Bool) (b : Dword), c.profile = .snapshot →
    sfd c rn ni b = ((sfdArchitectural c.nanNarrow .nearest false b).1, FpFlags.none)

/-- On the agreement core every profile returns the same word and no flag: a zero, an infinity, a number that is exactly
a binary32 normal, in every mode; and one that is exactly a binary32 denormal, when `ni` = 0
(41_single_from_double.md R133, an inference of the spec). -/
def Obligations.ProfilesAgreeOnCore : Prop :=
  ∀ (c : Config) (rn : RoundingMode) (ni : Bool) (b : Dword),
    (b.extractLsb' 0 63 = 0 → sfd c rn ni b = (b.extractLsb' 63 1 ++ 0#31, FpFlags.none)) ∧
    (exponentOf b = 2047 → fractionOf b = 0 →
      sfd c rn ni b = (b.extractLsb' 63 1 ++ 0xFF#8 ++ 0#23, FpFlags.none)) ∧
    (897 ≤ exponentOf b → exponentOf b ≤ 1150 → fractionOf b % 2 ^ 29 = 0 →
      sfd c rn ni b =
        (b.extractLsb' 63 1 ++ BitVec.ofNat 8 (exponentOf b - 896) ++ b.extractLsb' 29 23, FpFlags.none)) ∧
    (ni = false → IsSingleDenormal b →
      sfd c rn ni b =
        (b.extractLsb' 63 1 ++ 0#8 ++ BitVec.ofNat 23 ((2 ^ 52 + fractionOf b) >>> (926 - exponentOf b)),
          FpFlags.none))

/-- A store of a value in the agreement core has the same effect whichever profile the hardware follows: the whole
machine's next state, but for the profile itself (41_single_from_double.md R133, an inference of the spec). -/
def Obligations.CoreStoreSameUnderEveryProfile : Prop :=
  ∀ (i : Instr) (s t : State) (p q : FpStoreProfile),
    InCore (readFpr s i.fs) ∨ (s.fpscr.ni = false ∧ IsSingleDenormal (readFpr s i.fs)) →
    exec i { s with cfg := { s.cfg with profile := p } } = .next t →
    exec i { s with cfg := { s.cfg with profile := q } } = .next { t with cfg := { s.cfg with profile := q } }

/-- One row of a table of worked conversions: the operand's results with `ni` = 0 in the four modes, and with
`nearest` and `ni` = 1, under the recommended `NAN_NARROW`. -/
def conversionRow (b : Dword) (nearest zero pinf minf flushed : Word × FpFlags) : Prop :=
  sfdArchitectural .recommended .nearest false b = nearest ∧ sfdArchitectural .recommended .zero false b = zero ∧
  sfdArchitectural .recommended .pinf false b = pinf ∧ sfdArchitectural .recommended .minf false b = minf ∧
  sfdArchitectural .recommended .nearest true b = flushed

/-- Twelve whole rows of the worked conversions: eight of the table of 41_single_from_double.md R134, then four that only
the table V3 of 95_test_vectors.md has. The NaN of the last row is the recommended one (log 9). -/
def Obligations.WorkedConversions : Prop :=
  conversionRow 0x4170000010000000 (0x4B800000, .inexact) (0x4B800000, .inexact) (0x4B800001, .inexact)
    (0x4B800000, .inexact) (0x4B800000, .inexact) ∧
  conversionRow 0x3690000000000000 (0x00000000, .underflow) (0x00000000, .underflow) (0x00000001, .underflow)
    (0x00000000, .underflow) (0x00000000, .underflow) ∧
  conversionRow 0xBFB999999999999A (0xBDCCCCCD, .inexact) (0xBDCCCCCC, .inexact) (0xBDCCCCCC, .inexact)
    (0xBDCCCCCD, .inexact) (0xBDCCCCCD, .inexact) ∧
  conversionRow 0x4170000030000000 (0x4B800002, .inexact) (0x4B800001, .inexact) (0x4B800002, .inexact)
    (0x4B800001, .inexact) (0x4B800002, .inexact) ∧
  conversionRow 0x47EFFFFFF0000000 (0x7F800000, .overflow) (0x7F7FFFFF, .inexact) (0x7F800000, .overflow)
    (0x7F7FFFFF, .inexact) (0x7F800000, .overflow) ∧
  conversionRow 0xC8078287F49C4A1D (0xFF800000, .overflow) (0xFF7FFFFF, .overflow) (0xFF7FFFFF, .overflow)
    (0xFF800000, .overflow) (0xFF800000, .overflow) ∧
  conversionRow 0x37D0000000000000 (0x00080000, .none) (0x00080000, .none) (0x00080000, .none)
    (0x00080000, .none) (0x00000000, .underflow) ∧
  conversionRow 0x0000000000000001 (0x00000000, .underflow) (0x00000000, .underflow) (0x00000001, .underflow)
    (0x00000000, .underflow) (0x00000000, .underflow) ∧
  conversionRow 0x47EFFFFFE54DAFF8 (0x7F7FFFFF, .inexact) (0x7F7FFFFF, .inexact) (0x7F800000, .overflow)
    (0x7F7FFFFF, .inexact) (0x7F7FFFFF, .inexact) ∧
  conversionRow 0xB58DEE7A4AD4B81F (0x80000000, .underflow) (0x80000000, .underflow) (0x80000000, .underflow)
    (0x80000001, .underflow) (0x80000000, .underflow) ∧
  conversionRow 0x380FFFFFFFFFFFFF (0x00800000, .underflow) (0x007FFFFF, .underflow) (0x00800000, .underflow)
    (0x007FFFFF, .underflow) (0x00000000, .underflow) ∧
  conversionRow 0xFFF4000020000000 (0xFFE00001, .invalid) (0xFFE00001, .invalid) (0xFFE00001, .invalid)
    (0xFFE00001, .invalid) (0xFFE00001, .invalid)

/-! ### The invariant and reset -/

/-- Every step keeps the state's invariant: memory, reservations and the record of stored addresses in canonical form,
every byte stored to outside the program text, `pc` a multiple of 4 (10_state.md R28, R37, R38; 20_memory.md R68). -/
def Obligations.StepKeepsInvariant : Prop :=
  ∀ s t : State, s.Inv → step s = .next t → t.Inv

/-- The invariant holds after reset. -/
def Obligations.ResetMeetsInvariant : Prop := State.reset.Inv

/-- The model's choice of the state after reset, since the source gives none (10_state.md R40; log 2 to log 6): general
and floating-point registers zero, `pc` = 0x00010000, `MSR.FP` = 1, round to nearest, `NI`, flags and enables 0, no
byte listed, no reservation, the standard configuration. -/
def Obligations.ResetValues : Prop :=
  (∀ r : RegNum, readGpr State.reset r = 0 ∧ readFpr State.reset r = 0) ∧
  State.reset.pc = 0x00010000 ∧ State.reset.msr.fp = true ∧ State.reset.fpscr.rn = .nearest ∧
  State.reset.fpscr.ni = false ∧ State.reset.fpscr.flags = FpFlags.none ∧
  State.reset.fpscr.enables = ⟨false, false, false, false⟩ ∧
  (∀ n, readByte State.reset.mem n = none) ∧ State.reset.res = [] ∧ State.reset.cfg = Config.standard

/-! ### The profiles -/

/-- Which conversion a store performs (41_single_from_double.md R121): under `architectural` that of R122 to R131, under
`snapshot` that of R132, and under `book` the field selection of 93_implementation_defined.md G5, whose two defined
branches are stated and which depends on neither `rn` nor `ni`. The word of G5's undefined branch is free (log 10).
That the profile is a parameter is decision D2 of the spec (log 21). -/
def Obligations.ConversionIsTheProfiles : Prop :=
  ∀ (c : Config) (rn : RoundingMode) (ni : Bool) (b : Dword),
    (c.profile = .architectural → sfd c rn ni b = sfdArchitectural c.nanNarrow rn ni b) ∧
    (c.profile = .snapshot →
      sfd c rn ni b = ((sfdArchitectural c.nanNarrow .nearest false b).1, FpFlags.none)) ∧
    (c.profile = .book →
      (sfd c rn ni b).2 = FpFlags.none ∧
      (896 < exponentOf b ∨ b.extractLsb' 0 63 = 0 →
        (sfd c rn ni b).1 = b.extractLsb' 62 2 ++ b.extractLsb' 29 30) ∧
      (874 ≤ exponentOf b → exponentOf b ≤ 896 →
        (sfd c rn ni b).1 =
          b.extractLsb' 63 1 ++ 0#8 ++ BitVec.ofNat 23 ((2 ^ 52 + fractionOf b) >>> (926 - exponentOf b))) ∧
      ∀ (rn' : RoundingMode) (ni' : Bool), sfd c rn' ni' b = sfd c rn ni b)
end

