-- ==== Sys2Proof/Laws/State.lean ====
section
/-! SUPPORT. One lemma per field per update of the state, so that no proof unfolds a record update. -/

namespace Sys2Proof.Machine

@[simp] theorem writeGpr_gpr (s : State) (r : RegNum) (v : Dword) :
    (writeGpr s r v).gpr = s.gpr.set r.val v := rfl
@[simp] theorem writeGpr_fpr (s : State) (r : RegNum) (v : Dword) :
    (writeGpr s r v).fpr = s.fpr := rfl
@[simp] theorem writeGpr_pc (s : State) (r : RegNum) (v : Dword) :
    (writeGpr s r v).pc = s.pc := rfl
@[simp] theorem writeGpr_msr (s : State) (r : RegNum) (v : Dword) :
    (writeGpr s r v).msr = s.msr := rfl
@[simp] theorem writeGpr_fpscr (s : State) (r : RegNum) (v : Dword) :
    (writeGpr s r v).fpscr = s.fpscr := rfl
@[simp] theorem writeGpr_mem (s : State) (r : RegNum) (v : Dword) :
    (writeGpr s r v).mem = s.mem := rfl
@[simp] theorem writeGpr_res (s : State) (r : RegNum) (v : Dword) :
    (writeGpr s r v).res = s.res := rfl
@[simp] theorem writeGpr_written (s : State) (r : RegNum) (v : Dword) :
    (writeGpr s r v).written = s.written := rfl
@[simp] theorem writeGpr_cfg (s : State) (r : RegNum) (v : Dword) :
    (writeGpr s r v).cfg = s.cfg := rfl

@[simp] theorem advancePc_gpr (s : State) :
    (advancePc s).gpr = s.gpr := rfl
@[simp] theorem advancePc_fpr (s : State) :
    (advancePc s).fpr = s.fpr := rfl
@[simp] theorem advancePc_pc (s : State) :
    (advancePc s).pc = s.pc + 4 := rfl
@[simp] theorem advancePc_msr (s : State) :
    (advancePc s).msr = s.msr := rfl
@[simp] theorem advancePc_fpscr (s : State) :
    (advancePc s).fpscr = s.fpscr := rfl
@[simp] theorem advancePc_mem (s : State) :
    (advancePc s).mem = s.mem := rfl
@[simp] theorem advancePc_res (s : State) :
    (advancePc s).res = s.res := rfl
@[simp] theorem advancePc_written (s : State) :
    (advancePc s).written = s.written := rfl
@[simp] theorem advancePc_cfg (s : State) :
    (advancePc s).cfg = s.cfg := rfl

@[simp] theorem storeEffect_gpr (s : State) (ea : Addr) (fs : RegNum) :
    (storeEffect s ea fs).gpr = s.gpr := rfl
@[simp] theorem storeEffect_fpr (s : State) (ea : Addr) (fs : RegNum) :
    (storeEffect s ea fs).fpr = s.fpr := rfl
@[simp] theorem storeEffect_pc (s : State) (ea : Addr) (fs : RegNum) :
    (storeEffect s ea fs).pc = s.pc := rfl
@[simp] theorem storeEffect_msr (s : State) (ea : Addr) (fs : RegNum) :
    (storeEffect s ea fs).msr = s.msr := rfl
@[simp] theorem storeEffect_fpscr (s : State) (ea : Addr) (fs : RegNum) :
    (storeEffect s ea fs).fpscr = s.fpscr.raise (converted s fs).2 := rfl
@[simp] theorem storeEffect_mem (s : State) (ea : Addr) (fs : RegNum) :
    (storeEffect s ea fs).mem = memWrite s.mem ea (converted s fs).1 := rfl
@[simp] theorem storeEffect_res (s : State) (ea : Addr) (fs : RegNum) :
    (storeEffect s ea fs).res = resKill s.cfg s.res ea := rfl
@[simp] theorem storeEffect_written (s : State) (ea : Addr) (fs : RegNum) :
    (storeEffect s ea fs).written = noteStore s.written ea := rfl
@[simp] theorem storeEffect_cfg (s : State) (ea : Addr) (fs : RegNum) :
    (storeEffect s ea fs).cfg = s.cfg := rfl

@[simp] theorem withFetchWord_gpr (s : State) (nbits w : Nat) :
    (s.withFetchWord nbits w).gpr = s.gpr := rfl
@[simp] theorem withFetchWord_fpr (s : State) (nbits w : Nat) :
    (s.withFetchWord nbits w).fpr = s.fpr := rfl
@[simp] theorem withFetchWord_pc (s : State) (nbits w : Nat) :
    (s.withFetchWord nbits w).pc = s.pc := rfl
@[simp] theorem withFetchWord_msr (s : State) (nbits w : Nat) :
    (s.withFetchWord nbits w).msr = s.msr := rfl
@[simp] theorem withFetchWord_fpscr (s : State) (nbits w : Nat) :
    (s.withFetchWord nbits w).fpscr = s.fpscr := rfl
@[simp] theorem withFetchWord_mem (s : State) (nbits w : Nat) :
    (s.withFetchWord nbits w).mem = memWrite s.mem s.pc (tableWord nbits w) := rfl
@[simp] theorem withFetchWord_res (s : State) (nbits w : Nat) :
    (s.withFetchWord nbits w).res = s.res := rfl
@[simp] theorem withFetchWord_written (s : State) (nbits w : Nat) :
    (s.withFetchWord nbits w).written = s.written.filter (fun a => !((lanes s.pc).any (fun x => x.toNat == a))) := rfl
@[simp] theorem withFetchWord_cfg (s : State) (nbits w : Nat) :
    (s.withFetchWord nbits w).cfg = { s.cfg with textRegions := ⟨s.pc.toNat, 4⟩ :: s.cfg.textRegions } := rfl

@[simp] theorem raise_rn (r : Fpscr) (f : FpFlags) : (r.raise f).rn = r.rn := rfl
@[simp] theorem raise_ni (r : Fpscr) (f : FpFlags) : (r.raise f).ni = r.ni := rfl
@[simp] theorem raise_enables (r : Fpscr) (f : FpFlags) : (r.raise f).enables = r.enables := rfl
@[simp] theorem raise_flags (r : Fpscr) (f : FpFlags) : (r.raise f).flags = r.flags.union f := rfl

@[simp] theorem union_xx (f g : FpFlags) : (f.union g).xx = (f.xx || g.xx) := rfl
@[simp] theorem union_ox (f g : FpFlags) : (f.union g).ox = (f.ox || g.ox) := rfl
@[simp] theorem union_ux (f g : FpFlags) : (f.union g).ux = (f.ux || g.ux) := rfl
@[simp] theorem union_vxsnan (f g : FpFlags) : (f.union g).vxsnan = (f.vxsnan || g.vxsnan) := rfl

/-! ### Registers -/

@[simp] theorem readGpr_writeGpr_same (s : State) (r : RegNum) (v : Dword) :
    readGpr (writeGpr s r v) r = v := by
  simp [readGpr]

@[simp] theorem readGpr_writeGpr_other (s : State) (r q : RegNum) (v : Dword) (h : q ≠ r) :
    readGpr (writeGpr s r v) q = readGpr s q := by
  have hv : r.val ≠ q.val := fun e => h (Fin.ext e.symm)
  simp [readGpr, Vector.getElem_set_ne, hv]

theorem writeGpr_writeGpr (s : State) (r : RegNum) (v w : Dword) :
    writeGpr (writeGpr s r v) r w = writeGpr s r w := by
  simp [writeGpr]

end Sys2Proof.Machine
end

