-- ==== Sys2Proof/Laws/Conversion.lean ====
section
/-! SUPPORT. The fields and values of floating-point images, and one account of what the narrowing of a finite
operand returns (41_single_from_double.md R120, R125). -/

namespace Sys2Proof.Machine

/-! ### Fields of the binary64 image -/

theorem exponentOf_lt (b : Dword) : exponentOf b < 2048 := (b.extractLsb' 52 11).isLt

theorem fractionOf_lt (b : Dword) : fractionOf b < 2 ^ 52 := (b.extractLsb' 0 52).isLt

/-- The low 63 bits of an image are its exponent and its fraction. -/
theorem magnitudeImage (b : Dword) : (b.setWidth 63).toNat = exponentOf b * 2 ^ 52 + fractionOf b := by
  simp only [exponentOf, fractionOf, BitVec.toNat_setWidth, BitVec.extractLsb'_toNat, Nat.shiftRight_eq_div_pow]
  have := b.isLt
  omega

/-! ### Fields and value of a packed binary32 image -/

theorem packSingle_toNat (s : Bool) (mag : Nat) (h : mag < 2 ^ 31) :
    (packSingle s mag).toNat = s.toNat * 2 ^ 31 + mag := by
  simp only [packSingle, BitVec.toNat_append, BitVec.toNat_ofBool, BitVec.toNat_ofNat, Nat.mod_eq_of_lt h]
  rw [← Nat.shiftLeft_add_eq_or_of_lt h, Nat.shiftLeft_eq]

@[simp] theorem packSingle_sign (s : Bool) (mag : Nat) : (packSingle s mag).getLsbD 31 = s := by
  rw [packSingle, BitVec.getLsbD_append, if_neg (by omega)]
  cases s <;> rfl

theorem packSingle_exponent (s : Bool) (mag : Nat) (h : mag < 2 ^ 31) :
    singleExponent (packSingle s mag) = mag / 2 ^ 23 := by
  simp only [singleExponent, BitVec.extractLsb'_toNat, Nat.shiftRight_eq_div_pow, packSingle_toNat s mag h]
  cases s <;> simp <;> omega

theorem packSingle_fraction (s : Bool) (mag : Nat) (h : mag < 2 ^ 31) :
    singleFraction (packSingle s mag) = mag % 2 ^ 23 := by
  simp only [singleFraction, BitVec.extractLsb'_toNat, Nat.shiftRight_eq_div_pow, packSingle_toNat s mag h]
  cases s
  · simp
  · simp; omega

/-- A denormal magnitude, or the minimum normal one, is its number of units of `2^-149`. -/
theorem packSingle_units_low (s : Bool) (r : Nat) (h : r ≤ 2 ^ 23) :
    singleMagUnits (packSingle s r) = r * 2 ^ 925 := by
  rw [singleMagUnits, packSingle_exponent _ _ (by omega), packSingle_fraction _ _ (by omega)]
  rcases Nat.lt_or_eq_of_le h with h | rfl
  · rw [if_pos (Nat.div_eq_of_lt h), Nat.mod_eq_of_lt h]
  · have e1 : 2 ^ 23 / 2 ^ 23 = 1 := by decide
    have e2 : 2 ^ 23 % 2 ^ 23 = 0 := by decide
    rw [e1, e2, if_neg (by decide), Nat.add_zero, show 1 + 924 = 925 by omega]

/-- A normal magnitude assembled from a biased exponent and 24 significant bits, a carry into the exponent
included (R125 step 10). -/
theorem packSingle_units_high (s : Bool) (x r : Nat) (hx : 1 ≤ x) (hl : 2 ^ 23 ≤ r) (hr : r ≤ 2 ^ 24)
    (hm : x * 2 ^ 23 + r - 2 ^ 23 < 2 ^ 31) :
    singleMagUnits (packSingle s (x * 2 ^ 23 + r - 2 ^ 23)) = r * 2 ^ (x + 924) := by
  rw [singleMagUnits, packSingle_exponent _ _ hm, packSingle_fraction _ _ hm]
  rcases Nat.lt_or_eq_of_le hr with h | rfl
  · have e1 : (x * 2 ^ 23 + r - 2 ^ 23) / 2 ^ 23 = x := by omega
    have e2 : (x * 2 ^ 23 + r - 2 ^ 23) % 2 ^ 23 = r - 2 ^ 23 := by omega
    rw [e1, e2, if_neg (by omega), show 2 ^ 23 + (r - 2 ^ 23) = r by omega]
  · have e1 : (x * 2 ^ 23 + 2 ^ 24 - 2 ^ 23) / 2 ^ 23 = x + 1 := by omega
    have e2 : (x * 2 ^ 23 + 2 ^ 24 - 2 ^ 23) % 2 ^ 23 = 0 := by omega
    rw [e1, e2, if_neg (by omega), show x + 1 + 924 = (x + 924) + 1 by omega, Nat.pow_succ (m := x + 924),
      Nat.mul_comm (2 ^ (x + 924)) 2, ← Nat.mul_assoc, show (2 ^ 23 + 0) * 2 = 2 ^ 24 by omega]

/-! ### Rounding -/

theorem roundedBits_le (rn : RoundingMode) (s : Bool) (sig k : Nat) :
    sig / 2 ^ k ≤ roundedBits rn s sig k ∧ roundedBits rn s sig k ≤ sig / 2 ^ k + 1 := by
  simp only [roundedBits, Nat.shiftRight_eq_div_pow]
  split <;> omega

theorem roundsUp_exact (rn : RoundingMode) (s : Bool) (lo half : Nat) (h : 0 < half) :
    roundsUp rn s lo 0 half = false := by
  have : (0 : Nat) ≠ half := by omega
  cases rn <;> simp [roundsUp, this]

/-- A significand whose dropped bits are zero is kept as it is. -/
theorem roundedBits_exact (rn : RoundingMode) (s : Bool) (sig k : Nat) (h : sig % 2 ^ k = 0) :
    roundedBits rn s sig k = sig / 2 ^ k := by
  simp only [roundedBits, h, roundsUp_exact rn s _ _ (Nat.two_pow_pos _), Nat.shiftRight_eq_div_pow]
  simp

/-- The kept bits have the operand's value exactly when no bit that is not zero is dropped. -/
theorem roundedBits_value (rn : RoundingMode) (s : Bool) (sig k : Nat) :
    roundedBits rn s sig k * 2 ^ k = sig ↔ sig % 2 ^ k = 0 := by
  constructor
  · intro h
    rw [← h, Nat.mul_mod_left]
  · intro h
    rw [roundedBits_exact rn s sig k h]
    exact Nat.div_mul_cancel (Nat.dvd_of_mod_eq_zero h)

/-! ### The narrowing of a finite operand -/

/-- The exponent field an operand's magnitude is scaled by: a denormal counts as exponent 1. -/
def scaleOf (b : Dword) : Nat := max (exponentOf b) 1

/-- The significand of a finite operand (R125): 53 bits. -/
def significandOf (b : Dword) : Nat :=
  if exponentOf b = 0 then fractionOf b else 2 ^ 52 + fractionOf b

theorem significandOf_lt (b : Dword) : significandOf b < 2 ^ 53 := by
  have := fractionOf_lt b
  unfold significandOf
  split <;> omega

theorem doubleMagUnits_eq (b : Dword) : doubleMagUnits b = significandOf b * 2 ^ (scaleOf b - 1) := by
  unfold doubleMagUnits significandOf scaleOf
  split
  · rename_i h; simp [h]
  · rename_i h
    rw [Nat.max_eq_left (by omega)]

/-- The dropped bits of an operand. -/
def shiftOf (b : Dword) : Nat := if exponentOf b < 897 then 926 - scaleOf b else 29

/-- The result of the architectural conversion of a finite operand that is not zero, in one form for denormal and
normal operands (R125). -/
theorem sfd_finite (mode : NanNarrow) (rn : RoundingMode) (ni : Bool) (b : Dword)
    (hf : exponentOf b ≠ 2047) (hz : significandOf b ≠ 0) :
    sfdArchitectural mode rn ni b =
      if exponentOf b < 897 then
        if ni then (packSingle (signOf b) 0, FpFlags.underflow)
        else (packSingle (signOf b) (roundedBits rn (signOf b) (significandOf b) (shiftOf b)),
          if significandOf b % 2 ^ shiftOf b ≠ 0 then FpFlags.underflow else FpFlags.none)
      else if infinityMag ≤ (exponentOf b - 896) * 2 ^ 23 +
          roundedBits rn (signOf b) (significandOf b) 29 - 2 ^ 23 then
        (packSingle (signOf b) (overflowMag rn (signOf b)), FpFlags.overflow)
      else
        (packSingle (signOf b) ((exponentOf b - 896) * 2 ^ 23 +
            roundedBits rn (signOf b) (significandOf b) 29 - 2 ^ 23),
          if significandOf b % 2 ^ 29 ≠ 0 then FpFlags.inexact else FpFlags.none) := by
  by_cases h0 : exponentOf b = 0
  · have hm : fractionOf b ≠ 0 := by simpa [significandOf, h0] using hz
    have hc : classify b = .denormal := by simp [classify, h0, hm]
    have hsig : significandOf b = fractionOf b := by simp [significandOf, h0]
    have hs : shiftOf b = 925 := by simp [shiftOf, scaleOf, h0]
    have hd : dropCount (-1022) = 925 := by decide
    simp only [sfdArchitectural, hc, narrowFinite, hsig, hs, hd]
    rw [if_pos (show exponentOf b < 897 by omega)]
    cases ni <;> simp
  · have hc : classify b = .normal := by simp [classify, h0, hf]
    have hsig : significandOf b = 2 ^ 52 + fractionOf b := by simp [significandOf, h0]
    have ht : decide ((exponentOf b : Int) - 1023 < -126) = decide (exponentOf b < 897) := by
      apply decide_eq_decide.mpr; omega
    simp only [sfdArchitectural, hc, narrowFinite, hsig, ht]
    by_cases hl : exponentOf b < 897
    · have hd : dropCount ((exponentOf b : Int) - 1023) = shiftOf b := by
        rw [dropCount, if_pos (by omega), shiftOf, if_pos hl, scaleOf, Nat.max_eq_left (by omega)]
        omega
      rw [hd]
      cases ni <;> simp [hl]
    · have hd : dropCount ((exponentOf b : Int) - 1023) = 29 := by
        rw [dropCount, if_neg (by omega)]
      have he : ((exponentOf b : Int) - 1023 + 127).toNat = exponentOf b - 896 := by omega
      rw [hd, he]
      simp only [hl, decide_false, Bool.false_and, Bool.false_eq_true, if_false, Nat.shiftLeft_eq, ge_iff_le,
        decide_not, Bool.not_eq_true', decide_eq_false_iff_not]

end Sys2Proof.Machine
end

