-- ==== Sys2Proof/Laws/Decode.lean ====
section
/-! SUPPORT. The fields of an encoded instruction read back (30_encoding.md R83, R97), and the byte order of words
(20_memory.md R52, R53). -/

namespace Sys2Proof

/-! ### Register fields -/

@[simp] theorem regOfField_fieldOfReg (r : RegNum) : regOfField (fieldOfReg r) = r := by
  apply Fin.ext
  simp only [regOfField, fieldOfReg, BitVec.toNat_ofNat]
  omega

@[simp] theorem fieldOfReg_regOfField (f : BitVec 5) : fieldOfReg (regOfField f) = f := by
  apply BitVec.eq_of_toNat_eq
  simp only [regOfField, fieldOfReg, BitVec.toNat_ofNat]
  omega

/-! ### Words from fields -/

/-- The fields a D-form word gives back (R81). -/
theorem fields_of_dWord (op : BitVec 6) (a b : BitVec 5) (d : BitVec 16) :
    let w : Word := op ++ a ++ b ++ d
    w.extractLsb' 26 6 = op ∧ w.extractLsb' 21 5 = a ∧ w.extractLsb' 16 5 = b ∧ w.extractLsb' 0 16 = d := by
  refine ⟨?_, ?_, ?_, ?_⟩ <;>
    · ext i hi
      simp
      try grind

/-- The fields an X-form word gives back (R82). -/
theorem fields_of_xWord (op : BitVec 6) (a b c : BitVec 5) (xo : BitVec 10) (rc : BitVec 1) :
    let w : Word := op ++ a ++ b ++ c ++ xo ++ rc
    w.extractLsb' 26 6 = op ∧ w.extractLsb' 21 5 = a ∧ w.extractLsb' 16 5 = b ∧ w.extractLsb' 11 5 = c ∧
      w.extractLsb' 1 10 = xo ∧ w.extractLsb' 0 1 = rc := by
  refine ⟨?_, ?_, ?_, ?_, ?_, ?_⟩ <;>
    · ext i hi
      simp
      try grind

/-- A word is its D-form fields in order (R81: the fields cover bits 0 to 31 exactly). -/
theorem dWord_of_fields (w : Word) :
    (w.extractLsb' 26 6 ++ w.extractLsb' 21 5 ++ w.extractLsb' 16 5 ++ w.extractLsb' 0 16 : Word) = w := by
  ext i hi
  simp
  grind

/-- A word is its X-form fields in order (R82). -/
theorem xWord_of_fields (w : Word) :
    (w.extractLsb' 26 6 ++ w.extractLsb' 21 5 ++ w.extractLsb' 16 5 ++ w.extractLsb' 11 5 ++ w.extractLsb' 1 10 ++
      w.extractLsb' 0 1 : Word) = w := by
  ext i hi
  simp
  grind

/-! ### The fields of an encoded instruction -/

theorem fields_encode_stfs (fs ra : RegNum) (d : BitVec 16) :
    fieldOPCD (encode (.stfs fs ra d)) = opcdStfs ∧ fieldFS (encode (.stfs fs ra d)) = fs ∧
      fieldRA (encode (.stfs fs ra d)) = ra ∧ fieldD (encode (.stfs fs ra d)) = d := by
  have h := fields_of_dWord opcdStfs (fieldOfReg fs) (fieldOfReg ra) d
  simp only at h
  simp only [encode, fieldOPCD, fieldFS, fieldRA, fieldD, h, regOfField_fieldOfReg, and_self]

theorem fields_encode_stfsu (fs ra : RegNum) (d : BitVec 16) :
    fieldOPCD (encode (.stfsu fs ra d)) = opcdStfsu ∧ fieldFS (encode (.stfsu fs ra d)) = fs ∧
      fieldRA (encode (.stfsu fs ra d)) = ra ∧ fieldD (encode (.stfsu fs ra d)) = d := by
  have h := fields_of_dWord opcdStfsu (fieldOfReg fs) (fieldOfReg ra) d
  simp only at h
  simp only [encode, fieldOPCD, fieldFS, fieldRA, fieldD, h, regOfField_fieldOfReg, and_self]

theorem fields_encode_stfsx (fs ra rb : RegNum) :
    fieldOPCD (encode (.stfsx fs ra rb)) = opcdX ∧ fieldFS (encode (.stfsx fs ra rb)) = fs ∧
      fieldRA (encode (.stfsx fs ra rb)) = ra ∧ fieldRB (encode (.stfsx fs ra rb)) = rb ∧
      fieldXO (encode (.stfsx fs ra rb)) = xoStfsx ∧ fieldRc (encode (.stfsx fs ra rb)) = 0 := by
  have h := fields_of_xWord opcdX (fieldOfReg fs) (fieldOfReg ra) (fieldOfReg rb) xoStfsx 0#1
  simp only at h
  simp only [encode, fieldOPCD, fieldFS, fieldRA, fieldRB, fieldXO, fieldRc, h, regOfField_fieldOfReg]
  exact ⟨trivial, trivial, trivial, trivial, trivial, rfl⟩

theorem fields_encode_stfsux (fs ra rb : RegNum) :
    fieldOPCD (encode (.stfsux fs ra rb)) = opcdX ∧ fieldFS (encode (.stfsux fs ra rb)) = fs ∧
      fieldRA (encode (.stfsux fs ra rb)) = ra ∧ fieldRB (encode (.stfsux fs ra rb)) = rb ∧
      fieldXO (encode (.stfsux fs ra rb)) = xoStfsux ∧ fieldRc (encode (.stfsux fs ra rb)) = 0 := by
  have h := fields_of_xWord opcdX (fieldOfReg fs) (fieldOfReg ra) (fieldOfReg rb) xoStfsux 0#1
  simp only at h
  simp only [encode, fieldOPCD, fieldFS, fieldRA, fieldRB, fieldXO, fieldRc, h, regOfField_fieldOfReg]
  exact ⟨trivial, trivial, trivial, trivial, trivial, rfl⟩

/-! ### Byte order -/

theorem numberOfBytes_four (b0 b1 b2 b3 : Byte) :
    numberOfBytes [b0, b1, b2, b3] = (b0.toNat * 256 + b1.toNat) * 65536 + (b2.toNat * 256 + b3.toNat) := by
  simp only [numberOfBytes, List.foldl]
  omega

/-- A word from its own bytes (20_memory.md R52, R53). -/
@[simp] theorem wordOfBytes_bytesOfWord (w : Word) : wordOfBytes (bytesOfWord w) = w := by
  apply BitVec.eq_of_toNat_eq
  simp only [wordOfBytes, bytesOfWord, numberOfBytes_four, BitVec.toNat_ofNat, BitVec.extractLsb'_toNat,
    Nat.shiftRight_eq_div_pow]
  have := w.isLt
  omega

/-- Decoding the bytes of a word, with any bytes after them. -/
theorem decodeBytes_bytesOfWord (w : Word) (rest : List Byte) :
    decodeBytes (bytesOfWord w ++ rest) = .ok (decode w, rest) := by
  have h := wordOfBytes_bytesOfWord w
  simp only [bytesOfWord] at h
  simp only [bytesOfWord, List.cons_append, List.nil_append, decodeBytes, h]

end Sys2Proof
end

