-- ==== Sys2Proof/Laws/Memory.lean ====
section
/-! SUPPORT. What reads see of writes, and that every operation over memory, the record of stored addresses and
the reservation set keeps its canonical form. -/

namespace Sys2Proof.Machine

/-! ### One byte -/

@[simp] theorem readByte_writeByte_same (m : Memory) (a : Nat) (v : Byte) :
    readByte (writeByte m a v) a = some v := by
  induction m with
  | nil => simp [writeByte, readByte]
  | cons c rest ih =>
    obtain ⟨k, b⟩ := c
    simp only [writeByte]
    split
    · simp [readByte]
    · split
      · simp [readByte]
      · rename_i h1 h2; simp [readByte, h2, ih]

theorem readByte_writeByte_other (m : Memory) (a n : Nat) (v : Byte) (h : n ≠ a) :
    readByte (writeByte m a v) n = readByte m n := by
  induction m with
  | nil => simp [writeByte, readByte, h]
  | cons c rest ih =>
    obtain ⟨k, b⟩ := c
    simp only [writeByte]
    split
    · simp [readByte, h]
    · split
      · rename_i h1 h2; subst h2; simp [readByte, h]
      · simp only [readByte, ih]

theorem mem_keys_writeByte (m : Memory) (a : Nat) (v : Byte) (c : Host.Cell)
    (h : c ∈ writeByte m a v) : c ∈ m ∨ c.1 = a := by
  induction m with
  | nil => simp [writeByte] at h; exact .inr (by rw [h])
  | cons d rest ih =>
    obtain ⟨k, b⟩ := d
    simp only [writeByte] at h
    split at h
    · rcases List.mem_cons.mp h with rfl | h
      · exact .inr rfl
      · exact .inl h
    · split at h
      · rcases List.mem_cons.mp h with rfl | h
        · exact .inr rfl
        · exact .inl (List.mem_cons_of_mem _ h)
      · rcases List.mem_cons.mp h with rfl | h
        · exact .inl (List.mem_cons_self ..)
        · exact (ih h).imp_left (List.mem_cons_of_mem _)

theorem writeByte_wf (m : Memory) (a : Nat) (v : Byte) (ha : a < 2 ^ 32) (h : Memory.wf m) :
    Memory.wf (writeByte m a v) := by
  refine ⟨?_, fun c hc => ?_⟩
  · have hp := h.1
    clear h
    induction m with
    | nil => simp [writeByte]
    | cons d rest ih =>
      obtain ⟨k, b⟩ := d
      have hk := List.pairwise_cons.mp hp
      simp only [writeByte]
      split
      · rename_i hlt
        refine List.pairwise_cons.mpr ⟨fun c hc => ?_, hp⟩
        rcases List.mem_cons.mp hc with rfl | hc
        · exact hlt
        · exact Nat.lt_trans hlt (hk.1 c hc)
      · split
        · rename_i heq
          refine List.pairwise_cons.mpr ⟨fun c hc => ?_, hk.2⟩
          have := hk.1 c hc; simpa [heq] using this
        · refine List.pairwise_cons.mpr ⟨fun c hc => ?_, ih hk.2⟩
          rcases mem_keys_writeByte _ _ _ _ hc with hc | hc
          · exact hk.1 c hc
          · show k < c.1; omega
  · rcases mem_keys_writeByte _ _ _ _ hc with hc | hc
    · exact h.2 c hc
    · omega

/-! ### Several bytes -/

theorem addr_add_ne (a : Addr) (i j : Nat) (hi : i < 2 ^ 32) (hj : j < 2 ^ 32) (h : i ≠ j) :
    (a + BitVec.ofNat 32 i).toNat ≠ (a + BitVec.ofNat 32 j).toNat := by
  simp only [BitVec.toNat_add, BitVec.toNat_ofNat]
  have := a.isLt
  omega

theorem addr_add_add (a : Addr) (i : Nat) : a + 1 + BitVec.ofNat 32 i = a + BitVec.ofNat 32 (i + 1) := by
  have h1 : (1 : Addr) + BitVec.ofNat 32 i = BitVec.ofNat 32 (i + 1) := by
    rw [Nat.add_comm, BitVec.ofNat_add]; rfl
  rw [BitVec.add_assoc, h1]

theorem readByte_writeBytes_other (bs : List Byte) (m : Memory) (a : Addr) (n : Nat)
    (h : ∀ i, i < bs.length → n ≠ (a + BitVec.ofNat 32 i).toNat) :
    readByte (writeBytes m a bs) n = readByte m n := by
  induction bs generalizing m a with
  | nil => rfl
  | cons b bs ih =>
    rw [writeBytes, ih, readByte_writeByte_other]
    · simpa using h 0 (by simp)
    · intro i hi
      rw [addr_add_add]
      exact h (i + 1) (by simpa using hi)

theorem writeBytes_wf (bs : List Byte) (m : Memory) (a : Addr) (h : Memory.wf m) :
    Memory.wf (writeBytes m a bs) := by
  induction bs generalizing m a with
  | nil => exact h
  | cons b bs ih => exact ih _ _ (writeByte_wf _ _ _ a.isLt h)

/-- `MemWrite` keeps the canonical form of memory. -/
theorem memWrite_wf (m : Memory) (a : Addr) (w : Word) (h : Memory.wf m) : Memory.wf (memWrite m a w) :=
  writeBytes_wf _ _ _ h

/-- Writing never takes a byte's value away. -/
theorem readByte_writeByte_ne_none (m : Memory) (a n : Nat) (v : Byte) (h : readByte m n ≠ none) :
    readByte (writeByte m a v) n ≠ none := by
  by_cases e : n = a
  · subst e; simp
  · rwa [readByte_writeByte_other _ _ _ _ e]

/-! ### The four bytes of a store -/

theorem mem_lanes (a x : Addr) : x ∈ lanes a ↔ InStore a x := by
  simp only [lanes, List.mem_cons, List.not_mem_nil, or_false, InStore]
  constructor
  · rintro (rfl | rfl | rfl | rfl)
    · exact ⟨0, by omega, by simp⟩
    · exact ⟨1, by omega, rfl⟩
    · exact ⟨2, by omega, rfl⟩
    · exact ⟨3, by omega, rfl⟩
  · rintro ⟨k, hk, rfl⟩
    match k, hk with
    | 0, _ => exact .inl (by simp)
    | 1, _ => exact .inr (.inl rfl)
    | 2, _ => exact .inr (.inr (.inl rfl))
    | 3, _ => exact .inr (.inr (.inr rfl))

/-- A condition on some byte of a store, as `InStore` says it. -/
theorem lanes_any (a : Addr) (p : Addr → Bool) : (lanes a).any p = true ↔ ∃ x, InStore a x ∧ p x = true := by
  simp [List.any_eq_true, mem_lanes]

theorem lanes_any_false (a : Addr) (p : Addr → Bool) :
    (lanes a).any p = false ↔ ∀ x, InStore a x → p x = false := by
  simp [List.any_eq_false, mem_lanes]

theorem readByte_memWrite_other (m : Memory) (a : Addr) (w : Word) (n : Nat)
    (h : ∀ x, InStore a x → n ≠ x.toNat) : readByte (memWrite m a w) n = readByte m n :=
  readByte_writeBytes_other _ _ _ _ fun i hi => h _ ⟨i, by simpa [bytesOfWord] using hi, rfl⟩

/-- The four bytes of a store, most significant at the lowest address (20_memory.md R52). -/
theorem readByte_memWrite (m : Memory) (a : Addr) (w : Word) :
    readByte (memWrite m a w) a.toNat = some (w.extractLsb' 24 8) ∧
    readByte (memWrite m a w) (a + 1).toNat = some (w.extractLsb' 16 8) ∧
    readByte (memWrite m a w) (a + 2).toNat = some (w.extractLsb' 8 8) ∧
    readByte (memWrite m a w) (a + 3).toNat = some (w.extractLsb' 0 8) := by
  have h0 : a + BitVec.ofNat 32 0 = a := by simp
  have e2 : a + 1 + 1 = a + 2 := addr_add_add a 1
  have e3 : a + 2 + 1 = a + 3 := by rw [BitVec.add_assoc]; rfl
  have ne : ∀ i j, i < 4 → j < 4 → i ≠ j →
      (a + BitVec.ofNat 32 i).toNat ≠ (a + BitVec.ofNat 32 j).toNat :=
    fun i j hi hj => addr_add_ne a i j (by omega) (by omega)
  have ne0 : ∀ j, j < 4 → 0 ≠ j → a.toNat ≠ (a + BitVec.ofNat 32 j).toNat :=
    fun j hj h => by simpa only [h0] using ne 0 j (by omega) hj h
  have n01 : a.toNat ≠ (a + 1).toNat := ne0 1 (by omega) (by omega)
  have n02 : a.toNat ≠ (a + 2).toNat := ne0 2 (by omega) (by omega)
  have n03 : a.toNat ≠ (a + 3).toNat := ne0 3 (by omega) (by omega)
  have n12 : (a + 1).toNat ≠ (a + 2).toNat := ne 1 2 (by omega) (by omega) (by omega)
  have n13 : (a + 1).toNat ≠ (a + 3).toNat := ne 1 3 (by omega) (by omega) (by omega)
  have n23 : (a + 2).toNat ≠ (a + 3).toNat := ne 2 3 (by omega) (by omega) (by omega)
  simp only [memWrite, bytesOfWord, writeBytes, e2, e3]
  refine ⟨?_, ?_, ?_, ?_⟩
  · rw [readByte_writeByte_other _ _ _ _ n03, readByte_writeByte_other _ _ _ _ n02,
      readByte_writeByte_other _ _ _ _ n01, readByte_writeByte_same]
  · rw [readByte_writeByte_other _ _ _ _ n13, readByte_writeByte_other _ _ _ _ n12,
      readByte_writeByte_same]
  · rw [readByte_writeByte_other _ _ _ _ n23, readByte_writeByte_same]
  · exact readByte_writeByte_same ..

/-- The four bytes at an address, when each has a value. -/
theorem readBytes_four (m : Memory) (a : Addr) (b0 b1 b2 b3 : Byte)
    (h0 : readByte m a.toNat = some b0) (h1 : readByte m (a + 1).toNat = some b1)
    (h2 : readByte m (a + 2).toNat = some b2) (h3 : readByte m (a + 3).toNat = some b3) :
    readBytes m a 4 = some [b0, b1, b2, b3] := by
  have e2 : a + 1 + 1 = a + 2 := addr_add_add a 1
  have e3 : a + 2 + 1 = a + 3 := by rw [BitVec.add_assoc]; rfl
  simp only [readBytes, e2, e3, h0, h1, h2, h3]
  rfl

/-! ### The record of stored addresses -/

theorem mem_insertAddr (l : List Nat) (a n : Nat) : n ∈ insertAddr l a ↔ n ∈ l ∨ n = a := by
  induction l with
  | nil => simp [insertAddr]
  | cons k rest ih =>
    simp only [insertAddr]
    split
    · simp only [List.mem_cons]; tauto
    · split
      · rename_i h; subst h; simp only [List.mem_cons]; tauto
      · simp only [List.mem_cons, ih]; tauto

theorem insertAddr_sorted (l : List Nat) (a : Nat) (h : l.Pairwise (· < ·)) :
    (insertAddr l a).Pairwise (· < ·) := by
  induction l with
  | nil => simp [insertAddr]
  | cons k rest ih =>
    have hk := List.pairwise_cons.mp h
    simp only [insertAddr]
    split
    · rename_i hlt
      refine List.pairwise_cons.mpr ⟨fun c hc => ?_, h⟩
      rcases List.mem_cons.mp hc with rfl | hc
      · exact hlt
      · exact Nat.lt_trans hlt (hk.1 c hc)
    · split
      · exact h
      · refine List.pairwise_cons.mpr ⟨fun c hc => ?_, ih hk.2⟩
        rcases (mem_insertAddr _ _ _).mp hc with hc | rfl
        · exact hk.1 c hc
        · omega

theorem mem_noteStore (l : List Nat) (a : Addr) (n : Nat) :
    n ∈ noteStore l a ↔ n ∈ l ∨ ∃ x, InStore a x ∧ n = x.toNat := by
  simp only [← mem_lanes]
  simp only [noteStore, lanes, List.foldl, mem_insertAddr, List.mem_cons, List.not_mem_nil, or_false,
    or_and_right, exists_or, exists_eq_left]
  tauto

theorem noteStore_sorted (l : List Nat) (a : Addr) (h : l.Pairwise (· < ·)) :
    (noteStore l a).Pairwise (· < ·) := by
  simp only [noteStore, lanes, List.foldl]
  exact insertAddr_sorted _ _ (insertAddr_sorted _ _ (insertAddr_sorted _ _ (insertAddr_sorted _ _ h)))

/-! ### Reservations -/

theorem mem_resKill (c : Config) (l : List Reservation) (a : Addr) (r : Reservation) :
    r ∈ resKill c l a ↔ r ∈ l ∧ ¬ ∃ x, InStore a x ∧ x.toNat - x.toNat % c.granuleSize = r.granule := by
  simp only [resKill, List.mem_filter, Bool.not_eq_true', killedBy, lanes_any_false, granuleOf, beq_eq_false_iff_ne]
  simp only [not_exists, not_and]

theorem resKill_sorted (c : Config) (l : List Reservation) (a : Addr) (h : l.Pairwise Reservation.before) :
    (resKill c l a).Pairwise Reservation.before := h.filter _

end Sys2Proof.Machine
end

