-- ==== Sys2Proof/Laws/Exec.lean ====
section
/-! SUPPORT. When the four instructions and the step answer a next state, and which: the inversion lemmas that
proofs cite instead of unfolding a meaning. -/

namespace Sys2Proof.Machine

/-! ### Stops -/

@[simp] theorem toResult_ne_next (x : Stop) (t : State) : x.toResult ≠ .next t := by
  cases x <;> simp [Stop.toResult]

theorem finish_next (o : Option Stop) (d t : State) : finish o d = .next t ↔ o = none ∧ d = t := by
  cases o <;> simp [finish]

theorem finish_some (x : Stop) (d : State) : finish (some x) d = x.toResult := rfl

theorem fpStop_none (s : State) : fpStop s = none ↔ s.msr.fp = true := by
  cases h : s.msr.fp <;> simp [fpStop, h]

theorem pcStop_none (s : State) : pcStop s = none ↔ s.pc.toNat < 0xFFFFFFFC := by
  simp [pcStop]

theorem updateFormStop_none (s : State) (ra : RegNum) :
    updateFormStop s ra = none ↔ ra ≠ 0 ∨ s.cfg.invalidFormRA0 = .snapshot := by
  have h : s.cfg.invalidFormRA0 = .snapshot ↔ s.cfg.invalidFormRA0 ≠ .refuse := by
    cases s.cfg.invalidFormRA0 <;> simp
  rw [h, ← not_and_or]
  simp only [updateFormStop]
  split <;> simp_all

theorem misaligned_eq (a : Addr) : misaligned a = true ↔ a.toNat % 4 ≠ 0 := by simp [misaligned]

/-- The tests of a store pass exactly when the store can run (40_fp_store_single.md R101 steps 1 to 5). -/
theorem storeStop_none (s : State) (ea : Addr) (fs : RegNum) :
    storeStop s ea fs = none ↔ StoreCanRun s ea fs := by
  have hw : s.cfg.eaTopWrap = .wrap ↔ s.cfg.eaTopWrap ≠ .refuse := by cases s.cfg.eaTopWrap <;> simp
  have hc : s.cfg.ciMisaligned = .perform ↔ s.cfg.ciMisaligned ≠ .fault := by
    cases s.cfg.ciMisaligned <;> simp
  have e1 : ¬(0xFFFFFFFC < ea.toNat ∧ s.cfg.eaTopWrap = .refuse) ↔
      (ea.toNat ≤ 0xFFFFFFFC ∨ s.cfg.eaTopWrap = .wrap) := by
    rw [hw, not_and_or, Nat.not_lt]
  have e2 : ¬(misaligned ea = true ∧ s.cfg.ciMisaligned = .fault ∧ (lanes ea).any (cacheInhibited s) = true) ↔
      (ea.toNat % 4 = 0 ∨ (∀ a, InStore ea a → cacheInhibited s a = false) ∨ s.cfg.ciMisaligned = .perform) := by
    rw [hc, misaligned_eq, ← lanes_any_false, not_and_or, not_and_or, Bool.not_eq_true]
    tauto
  have e3 : ¬((lanes ea).any (fun a => !mapped s a) = true) ↔ ∀ a, InStore ea a → mapped s a = true := by
    rw [Bool.not_eq_true, lanes_any_false]; simp
  have e4 : ¬((lanes ea).any (inText s) = true) ↔ ∀ a, InStore ea a → inText s a = false := by
    rw [Bool.not_eq_true, lanes_any_false]
  have e5 : ¬(s.fpscr.enables.trapOn (converted s fs).2 = true) ↔
      s.fpscr.enables.trapOn (sfd s.cfg s.fpscr.rn s.fpscr.ni (readFpr s fs)).2 = false := by
    rw [Bool.not_eq_true]; rfl
  simp only [storeStop]
  constructor
  · intro h
    split at h
    · cases h
    · split at h
      · cases h
      · split at h
        · cases h
        · split at h
          · cases h
          · split at h
            · cases h
            · rename_i h1 h2 h3 h4 h5
              exact ⟨e1.mp h1, e2.mp h2, e3.mp h3, e4.mp h4, e5.mp h5⟩
  · rintro ⟨h1, h2, h3, h4, h5⟩
    rw [if_neg (e1.mpr h1), if_neg (e2.mpr h2), if_neg (e3.mpr h3), if_neg (e4.mpr h4), if_neg (e5.mpr h5)]

/-! ### The completed state -/

/-- The state an instruction leaves when it completes: the store, the update of `RA` in the update forms, and
`pc + 4` (40_fp_store_single.md R102 to R106). -/
def completed (i : Instr) (s : State) : State :=
  advancePc
    (if i.isUpdate then
      writeGpr (storeEffect s (storeAddress i s) i.fs) i.ra (updateVal (storeAddress i s))
    else storeEffect s (storeAddress i s) i.fs)

/-- What an instruction can do when it answers a next state. -/
theorem exec_next (i : Instr) (s t : State) : exec i s = .next t ↔ CanRun i s ∧ t = completed i s := by
  have hcan : CanRun i s ↔ Ready s ∧ FormRuns i s ∧ StoreCanRun s (storeAddress i s) i.fs :=
    ⟨fun h => ⟨h.ready, h.form, h.store⟩, fun h => ⟨h.1, h.2.1, h.2.2⟩⟩
  rw [hcan]
  cases i with
  | stfs fs ra d =>
    simp only [exec, execStfs, storePlain, finish_next, Option.or_eq_none_iff, fpStop_none, pcStop_none, storeStop_none]
    simp only [Ready, FormRuns, Instr.wellFormed, storeAddress, Instr.fs, completed, Instr.isUpdate, eq_comm (a := t)]
    tauto
  | stfsu fs ra d =>
    simp only [exec, execStfsu, storeUpdate, finish_next, Option.or_eq_none_iff, fpStop_none, pcStop_none, storeStop_none,
      updateFormStop_none]
    simp only [Ready, FormRuns, Instr.wellFormed, storeAddress, Instr.fs, completed, Instr.isUpdate, Instr.ra,
      decide_eq_true_eq, if_true, eq_comm (a := t)]
    tauto
  | stfsx fs ra rb =>
    simp only [exec, execStfsx, storePlain, finish_next, Option.or_eq_none_iff, fpStop_none, pcStop_none, storeStop_none]
    simp only [Ready, FormRuns, Instr.wellFormed, storeAddress, Instr.fs, completed, Instr.isUpdate, eq_comm (a := t)]
    tauto
  | stfsux fs ra rb =>
    simp only [exec, execStfsux, storeUpdate, finish_next, Option.or_eq_none_iff, fpStop_none, pcStop_none, storeStop_none,
      updateFormStop_none]
    simp only [Ready, FormRuns, Instr.wellFormed, storeAddress, Instr.fs, completed, Instr.isUpdate, Instr.ra,
      decide_eq_true_eq, if_true, eq_comm (a := t)]
    tauto

/-- A state that differs from a completed store at most in its general registers has had the store done. -/
theorem storeDone_of_fields (s t : State) (ea : Addr) (fs : RegNum)
    (hm : t.mem = (storeEffect s ea fs).mem) (hr : t.res = (storeEffect s ea fs).res)
    (hq : t.fpscr = (storeEffect s ea fs).fpscr) (hw : t.written = (storeEffect s ea fs).written)
    (hp : t.pc = s.pc + 4) (hf : t.fpr = s.fpr) (hs : t.msr = s.msr) (hc : t.cfg = s.cfg) :
    StoreDone s t ea fs := by
  obtain ⟨b0, b1, b2, b3⟩ := readByte_memWrite s.mem ea (converted s fs).1
  constructor
  case byte0 => rw [hm]; exact b0
  case byte1 => rw [hm]; exact b1
  case byte2 => rw [hm]; exact b2
  case byte3 => rw [hm]; exact b3
  case others => intro n h; rw [hm]; exact readByte_memWrite_other _ _ _ _ h
  case reservations => intro r; rw [hr]; exact mem_resKill _ _ _ _
  case written => intro n; rw [hw]; exact mem_noteStore _ _ _
  all_goals first | assumption | (rw [hq]; rfl)

/-- What a completed instruction has done, for each of the four. -/
theorem storeDone_completed (i : Instr) (s : State) :
    StoreDone s (completed i s) (storeAddress i s) i.fs := by
  apply storeDone_of_fields <;> cases i <;> rfl

theorem completed_gpr (i : Instr) (s : State) :
    (completed i s).gpr = if i.isUpdate then s.gpr.set i.ra.val (updateVal (storeAddress i s)) else s.gpr := by
  cases i <;> rfl

/-! ### The step -/

/-- What a step can do when it answers a next state: it ran the instruction it fetched. -/
theorem step_next (s t : State) :
    step s = .next t ↔ ∃ i, fetchInstr s = .ok i ∧ CanRun i s ∧ t = completed i s := by
  simp only [step]
  split
  · rename_i x h; simp [h]
  · rename_i i h; simp [h, exec_next]

/-- A step that is taken is taken at a `pc` that is a multiple of 4. -/
theorem fetchStop_of_fetchInstr (s : State) (i : Instr) (h : fetchInstr s = .ok i) : fetchStop s = none := by
  simp only [fetchInstr, fetchVerdict] at h
  cases hf : fetchStop s with
  | none => rfl
  | some x => simp [hf] at h

theorem fetchStop_none (s : State) :
    fetchStop s = none ↔ s.pc.toNat % 4 = 0 ∧ (∀ a, InStore s.pc a → mapped s a = true) ∧
      ∀ a, InStore s.pc a → a.toNat ∉ s.written := by
  have e2 : (lanes s.pc).any (fun a => !mapped s a) = false ↔ ∀ a, InStore s.pc a → mapped s a = true := by
    rw [lanes_any_false]; simp
  have e3 : (lanes s.pc).any (fun a => s.written.contains a.toNat) = false ↔
      ∀ a, InStore s.pc a → a.toNat ∉ s.written := by
    rw [lanes_any_false]; simp
  rw [← e2, ← e3]
  by_cases h1 : s.pc.toNat % 4 = 0
  · cases h2 : (lanes s.pc).any (fun a => !mapped s a) <;>
      cases h3 : (lanes s.pc).any (fun a => s.written.contains a.toNat) <;>
        simp only [fetchStop, misaligned_eq, h1, h2, h3] <;> simp
  · simp [fetchStop, misaligned_eq, h1]

end Sys2Proof.Machine
end

