-- ==== Sys2Proof/Laws/PerInstr.lean ====
section
/-! SUPPORT. Statements about every instruction as syntax, one lemma per constructor. -/

namespace Sys2Proof.Laws.FieldsReadBack

/-- The register fields of an instruction's word are the
instruction's registers, and its row is a row of the opcode table (30_encoding.md R83, R92). -/
def Statement (i : Instr) : Prop :=
  fieldFS (encode i) = i.fs ∧ fieldRA (encode i) = i.ra ∧ i.row ∈ opcodeTable

theorem stfs (fs ra : RegNum) (d : BitVec 16) : Statement (.stfs fs ra d) :=
  ⟨(fields_encode_stfs fs ra d).2.1, (fields_encode_stfs fs ra d).2.2.1, by simp [opcodeTable, Instr.row]⟩

theorem stfsu (fs ra : RegNum) (d : BitVec 16) : Statement (.stfsu fs ra d) :=
  ⟨(fields_encode_stfsu fs ra d).2.1, (fields_encode_stfsu fs ra d).2.2.1, by simp [opcodeTable, Instr.row]⟩

theorem stfsx (fs ra rb : RegNum) : Statement (.stfsx fs ra rb) :=
  ⟨(fields_encode_stfsx fs ra rb).2.1, (fields_encode_stfsx fs ra rb).2.2.1, by simp [opcodeTable, Instr.row]⟩

theorem stfsux (fs ra rb : RegNum) : Statement (.stfsux fs ra rb) :=
  ⟨(fields_encode_stfsux fs ra rb).2.1, (fields_encode_stfsux fs ra rb).2.2.1, by simp [opcodeTable, Instr.row]⟩

end Sys2Proof.Laws.FieldsReadBack
end

