-- ==== Sys2Proof/Tests/Slice0.lean ====
section
/-! SUPPORT. Tests with expected results from the spec's own tables (95_test_vectors.md, 41_single_from_double.md
R134), and for every obligation with hypotheses a witness that they can be met together. -/

namespace Sys2Proof.Machine.Tests

set_option Elab.async false

open Sys2Proof Sys2Proof.Machine

/-! ### Small states -/

/-- A register file that is zero but for the registers listed. -/
def file (l : List (RegNum × Dword)) : Vector Dword 32 :=
  l.foldl (fun v p => v.set p.1.val p.2) (Vector.replicate 32 0)

/-- The launch state of 95_test_vectors.md V5: `pc` = 0x00010000, the word `w` there, and the registers named. -/
def launch (w : Nat) (g f : List (RegNum × Dword)) : State :=
  { State.reset.withFetchWord 32 w with gpr := file g, fpr := file f }

/-- A state with its configuration changed. -/
def withCfg (s : State) (k : Config → Config) : State := { s with cfg := k s.cfg }

/-- The pages `0x6000..0x6FFF` cache-inhibited. -/
def ciPage (c : Config) : Config := { c with cacheInhibitedRegions := [⟨0x6000, 0x1000⟩] }

/-- The pages `0x8000..0x8FFF` not mapped. -/
def hole (c : Config) : Config := { c with mappedRegions := [⟨0, 0x8000⟩, ⟨0x9000, 0xFFFF7000⟩] }

/-- Something read from the next state. -/
def nextOf {α : Type} (r : Result) (p : State → α) : Option α :=
  match r with
  | .next t => some (p t)
  | .fault _ => none
  | .refused _ => none

/-- The reason to stop. -/
def stopOf (r : Result) : Option Stop :=
  match r with
  | .next _ => none
  | .fault f => some (.fault f)
  | .refused x => some (.refused x)

/-! ### WellFormed: each ill-formed term is refused (30_encoding.md R90) -/

theorem test_stfsu_r0_is_ill_formed : (Instr.stfsu 1 0 0x0004).wellFormed = false := by decide

theorem test_stfsux_r0_is_ill_formed : (Instr.stfsux 1 0 4).wellFormed = false := by decide

theorem test_overlaps_are_well_formed :
    (Instr.stfsu 1 1 0xFFF8).wellFormed = true ∧ (Instr.stfsux 31 31 31).wellFormed = true ∧
    (Instr.stfs 0 0 0).wellFormed = true ∧ (Instr.stfsx 0 0 0).wellFormed = true := by decide

/-! ### Decoding: the words of 95_test_vectors.md V1, and some written out field by field (R83, R92) -/

theorem test_decode_stfs :
    decode (0b110100#6 ++ 0b00001#5 ++ 0b00011#5 ++ 0b0000000000001000#16) = .instr (.stfs 1 3 0x0008) ∧
    decode 0xD0000000 = .instr (.stfs 0 0 0x0000) ∧ decode 0xD3E1FFFC = .instr (.stfs 31 1 0xFFFC) ∧
    decode 0xD020FFFC = .instr (.stfs 1 0 0xFFFC) ∧ decode 0xD0200100 = .instr (.stfs 1 0 0x0100) ∧
    decode 0xD0A97FFF = .instr (.stfs 5 9 0x7FFF) ∧ decode 0xD0A98000 = .instr (.stfs 5 9 0x8000) ∧
    decode 0xD3FFFFFF = .instr (.stfs 31 31 0xFFFF) := by decide

theorem test_decode_stfsu :
    decode (0b110101#6 ++ 0b00010#5 ++ 0b00100#5 ++ 0b0000000000010000#16) = .instr (.stfsu 2 4 0x0010) ∧
    decode 0xD421FFF8 = .instr (.stfsu 1 1 0xFFF8) ∧ decode 0xD7FFFFFF = .instr (.stfsu 31 31 0xFFFF) ∧
    decode 0xD4200004 = .invalidForm (.stfsu 1 0 0x0004) ∧
    decode 0xD4000000 = .invalidForm (.stfsu 0 0 0x0000) := by decide

theorem test_decode_stfsx :
    decode (0b011111#6 ++ 0b00011#5 ++ 0b00101#5 ++ 0b00110#5 ++ 0b1010010111#10 ++ 0#1) =
      .instr (.stfsx 3 5 6) ∧
    decode 0x7C00052E = .instr (.stfsx 0 0 0) ∧ decode 0x7C20252E = .instr (.stfsx 1 0 4) ∧
    decode 0x7FFFFD2E = .instr (.stfsx 31 31 31) ∧ decode 0x7C65352F = .reservedRc (.stfsx 3 5 6) := by decide

theorem test_decode_stfsux :
    decode (0b011111#6 ++ 0b00100#5 ++ 0b00111#5 ++ 0b01000#5 ++ 0b1010110111#10 ++ 0#1) =
      .instr (.stfsux 4 7 8) ∧
    decode 0x7C231D6E = .instr (.stfsux 1 3 3) ∧ decode 0x7FFFFD6E = .instr (.stfsux 31 31 31) ∧
    decode 0x7C20256E = .invalidForm (.stfsux 1 0 4) ∧ decode 0x7C00056E = .invalidForm (.stfsux 0 0 0) ∧
    decode 0x7C87456F = .reservedRc (.stfsux 4 7 8) ∧
    decode 0x7C20256F = .reservedRc (.stfsux 1 0 4) := by decide

theorem test_decode_out_of_scope :
    [0x7C00052C, 0x7C00056C, 0x7C0005AE, 0x7C00042E, 0x7C00012E, 0x7800052E, 0xD8000000, 0xCC000000, 0xC0000000,
      0x90000000, 0x00000000, 0xFFFFFFFF].all (fun w : Word => decode w == .notInScope) = true := by decide

/-- The bytes of 95_test_vectors.md P2, and fewer than four bytes. -/
theorem test_decode_bytes :
    decodeBytes [0x7C, 0x23, 0x25, 0x2E, 0x7C] = .ok (.instr (.stfsx 1 3 4), [0x7C]) ∧
    encodeBytes (.stfsx 1 3 4) = [0x7C, 0x23, 0x25, 0x2E] ∧
    decodeBytes [0xD0, 0x23, 0x00] = .error .truncated := by decide

/-- Each row of the opcode table, through the host's question. -/
theorem test_decode_table_words :
    decodeTableWord 32 0xD0000000 = some (.stfs 0 0 0) ∧ decodeTableWord 32 0xD4000000 = some (.stfsu 0 0 0) ∧
    decodeTableWord 32 0x7C00052E = some (.stfsx 0 0 0) ∧ decodeTableWord 32 0x7C00056E = some (.stfsux 0 0 0) ∧
    decodeTableWord 32 0x7C00052F = none ∧ decodeTableWord 32 0xFFFFFFFF = none := by decide

/-- The assembler text of words of V1. -/
theorem test_assembler_text :
    (Instr.stfs 31 1 0xFFFC).text = "stfs f31, -4(r1)" ∧ (Instr.stfs 1 0 0x0100).text = "stfs f1, 256(0)" ∧
    (Instr.stfsu 2 4 0x0010).text = "stfsu f2, 16(r4)" ∧ (Instr.stfsx 1 0 4).text = "stfsx f1, 0, r4" ∧
    (Instr.stfsx 0 0 0).text = "stfsx f0, 0, r0" ∧ (Instr.stfsux 4 7 8).text = "stfsux f4, r7, r8" := by
  decide +kernel

/-! ### Effective addresses (95_test_vectors.md V2) -/

theorem test_effective_addresses :
    eaOf 0x0000000000001000 (dispVal 0x0008) = 0x00001008 ∧ eaOf 0x0000000100001000 0x8 = 0x00001008 ∧
    eaOf 0 (dispVal 0xFFFC) = 0xFFFFFFFC ∧ eaOf 0xFFFFFFFFFFFFFFFC 0x8 = 0x00000004 ∧
    eaOf 0x00000000FFFFFFF0 0x20 = 0x00000010 ∧ eaOf 0x8000000012345678 0x7FFFFFFF00000008 = 0x12345680 ∧
    eaOf 0x10000 (dispVal 0x8000) = 0x00008000 ∧ eaOf 0x10000 (dispVal 0x7FFF) = 0x00017FFF ∧
    eaOf 0 (dispVal 0x8000) = 0xFFFF8000 ∧ updateVal (eaOf 0xFFFFFFFF00001000 (dispVal 0x0010)) = 0x1010 := by
  decide

/-! ### The conversion (41_single_from_double.md R134, 95_test_vectors.md V3, V4) -/

/-- One row: the operand, and the results for `nearest`, `zero`, `pinf`, `minf`, and `nearest` with `ni` = 1. -/
def rowHolds (r : Dword × (Word × FpFlags) × (Word × FpFlags) × (Word × FpFlags) × (Word × FpFlags) ×
    (Word × FpFlags)) : Bool :=
  sfdArchitectural .recommended .nearest false r.1 == r.2.1 &&
  sfdArchitectural .recommended .zero false r.1 == r.2.2.1 &&
  sfdArchitectural .recommended .pinf false r.1 == r.2.2.2.1 &&
  sfdArchitectural .recommended .minf false r.1 == r.2.2.2.2.1 &&
  sfdArchitectural .recommended .nearest true r.1 == r.2.2.2.2.2

/-- Rows of R134 and V3 with a rounding or an overflow. -/
theorem test_conversion_rounds :
    [((0x3FB999999999999A : Dword), ((0x3DCCCCCD : Word), FpFlags.inexact), ((0x3DCCCCCC : Word), FpFlags.inexact),
        ((0x3DCCCCCD : Word), FpFlags.inexact), ((0x3DCCCCCC : Word), FpFlags.inexact),
        ((0x3DCCCCCD : Word), FpFlags.inexact)),
      (0xBFB999999999999A, (0xBDCCCCCD, .inexact), (0xBDCCCCCC, .inexact), (0xBDCCCCCC, .inexact),
        (0xBDCCCCCD, .inexact), (0xBDCCCCCD, .inexact)),
      (0x4170000010000000, (0x4B800000, .inexact), (0x4B800000, .inexact), (0x4B800001, .inexact),
        (0x4B800000, .inexact), (0x4B800000, .inexact)),
      (0x4170000030000000, (0x4B800002, .inexact), (0x4B800001, .inexact), (0x4B800002, .inexact),
        (0x4B800001, .inexact), (0x4B800002, .inexact)),
      (0x47EFFFFFF0000000, (0x7F800000, .overflow), (0x7F7FFFFF, .inexact), (0x7F800000, .overflow),
        (0x7F7FFFFF, .inexact), (0x7F800000, .overflow)),
      (0x47EFFFFFE54DAFF8, (0x7F7FFFFF, .inexact), (0x7F7FFFFF, .inexact), (0x7F800000, .overflow),
        (0x7F7FFFFF, .inexact), (0x7F7FFFFF, .inexact)),
      (0x47F0000000000000, (0x7F800000, .overflow), (0x7F7FFFFF, .overflow), (0x7F800000, .overflow),
        (0x7F7FFFFF, .overflow), (0x7F800000, .overflow)),
      (0xC8078287F49C4A1D, (0xFF800000, .overflow), (0xFF7FFFFF, .overflow), (0xFF7FFFFF, .overflow),
        (0xFF800000, .overflow), (0xFF800000, .overflow))].all rowHolds = true := by
  decide +kernel

/-- Rows of R134 and V3 with a magnitude below `2^-126`. -/
theorem test_conversion_is_tiny :
    [((0x37D0000000000000 : Dword), ((0x00080000 : Word), FpFlags.none), ((0x00080000 : Word), FpFlags.none),
        ((0x00080000 : Word), FpFlags.none), ((0x00080000 : Word), FpFlags.none),
        ((0x00000000 : Word), FpFlags.underflow)),
      (0x37A16C262777579C, (0x000116C2, .underflow), (0x000116C2, .underflow), (0x000116C3, .underflow),
        (0x000116C2, .underflow), (0x00000000, .underflow)),
      (0x3690000000000000, (0x00000000, .underflow), (0x00000000, .underflow), (0x00000001, .underflow),
        (0x00000000, .underflow), (0x00000000, .underflow)),
      (0x3698000000000000, (0x00000001, .underflow), (0x00000000, .underflow), (0x00000001, .underflow),
        (0x00000000, .underflow), (0x00000000, .underflow)),
      (0x0000000000000001, (0x00000000, .underflow), (0x00000000, .underflow), (0x00000001, .underflow),
        (0x00000000, .underflow), (0x00000000, .underflow)),
      (0xB58DEE7A4AD4B81F, (0x80000000, .underflow), (0x80000000, .underflow), (0x80000000, .underflow),
        (0x80000001, .underflow), (0x80000000, .underflow)),
      (0x380FFFFFFFFFFFFF, (0x00800000, .underflow), (0x007FFFFF, .underflow), (0x00800000, .underflow),
        (0x007FFFFF, .underflow), (0x00000000, .underflow))].all rowHolds = true := by
  decide +kernel

/-- Rows of R134 and V3 whose result is the same in every mode. -/
theorem test_conversion_same_in_every_mode :
    [((0xC004000000000000 : Dword), (0xC0200000 : Word), FpFlags.none), (0x47EFFFFFE0000000, 0x7F7FFFFF, .none),
      (0x3810000000000000, 0x00800000, .none), (0x8000000000000000, 0x80000000, .none),
      (0xFFF0000000000000, 0xFF800000, .none), (0x7FF8000000000000, 0x7FC00000, .none),
      (0xFFFFFFFFFFFFFFFF, 0xFFFFFFFF, .none), (0x7FF0000000000001, 0x7FC00000, .invalid),
      (0x7FF00000DEADBEEF, 0x7FC00006, .invalid), (0xFFF4000020000000, 0xFFE00001, .invalid)].all
      (fun r => rowHolds (r.1, r.2, r.2, r.2, r.2, r.2)) = true := by
  decide +kernel

/-- Rows of V4: the operand, and the words of the `snapshot` and `book` profiles. -/
theorem test_other_profiles :
    [((0xC004000000000000 : Dword), (0xC0200000 : Word), (0xC0200000 : Word)),
      (0x3810000000000000, 0x00800000, 0x00800000), (0xFFF0000000000000, 0xFF800000, 0xFF800000),
      (0x8000000000000000, 0x80000000, 0x80000000), (0x3748000000000000, 0x00000600, 0x00000600),
      (0x36A0000000000000, 0x00000001, 0x00000001), (0x3FB999999999999A, 0x3DCCCCCD, 0x3DCCCCCC),
      (0x48078287F49C4A1D, 0x7F800000, 0x403C143F), (0x47EFFFFFF0000000, 0x7F800000, 0x7F7FFFFF),
      (0x37A16C262777579C, 0x000116C2, 0x000116C2), (0x7FF0000000000001, 0x7FC00000, 0x7F800000),
      (0x7FF00000DEADBEEF, 0x7FC00006, 0x7F800006)].all
      (fun r => sfdSnapshot .recommended r.1 == (r.2.1, FpFlags.none) && sfdBook r.1 == (r.2.2, FpFlags.none)) =
      true := by
  decide +kernel

/-! ### One step of each instruction (95_test_vectors.md V5, Part 3) -/

/-- V5 row 1. -/
theorem test_stfs_stores :
    nextOf (step (launch 0xD0230008 [(3, 0x1000)] [(1, 0x3FF0000000000000)]))
      (fun t => (readBytes t.mem 0x1008 4, t.pc)) = some (some [0x3F, 0x80, 0x00, 0x00], 0x00010004) := by
  decide +kernel

/-- V5 row 17. -/
theorem test_stfs_rounds_and_sets_xx :
    nextOf (step { launch 0xD0230008 [(3, 0x1000)] [(1, 0x3FB999999999999A)] with
        fpscr := { State.reset.fpscr with rn := .zero } })
      (fun t => (readBytes t.mem 0x1008 4, t.fpscr.flags, readFpr t 1)) =
      some (some [0x3D, 0xCC, 0xCC, 0xCC], FpFlags.inexact, 0x3FB999999999999A) := by
  decide +kernel

/-- P1 step 2. -/
theorem test_stfsu_updates :
    nextOf (step (launch 0xD4430004 [(3, 0x2000)] [(2, 0xC004000000000000)]))
      (fun t => (readBytes t.mem 0x2004 4, readGpr t 3)) = some (some [0xC0, 0x20, 0x00, 0x00], 0x2004) := by
  decide +kernel

/-- V5 row 4. -/
theorem test_stfsu_r0_under_snapshot :
    nextOf (step (withCfg (launch 0xD4200004 [(0, 0x3000)] [(1, 0x4000000000000000)])
        (fun c => { c with invalidFormRA0 := .snapshot })))
      (fun t => (readBytes t.mem 0x3004 4, readGpr t 0, t.pc)) =
      some (some [0x40, 0x00, 0x00, 0x00], 0x3004, 0x00010004) := by
  decide +kernel

/-- P3 step 2. -/
theorem test_stfsx_zero_base :
    nextOf (step (launch 0x7C402D2E [(0, 0xDEAD0000), (5, 0x0000000780004000)] [(2, 0x7FF0000000000000)]))
      (fun t => (readBytes t.mem 0x80004000 4, readGpr t 0)) =
      some (some [0x7F, 0x80, 0x00, 0x00], 0xDEAD0000) := by
  decide +kernel

/-- V5 row 6. -/
theorem test_stfsx_rc_ignored :
    nextOf (step (withCfg (launch 0x7C65352F [(5, 0x1000), (6, 0x24)] [(3, 0x3FF8000000000000)])
        (fun c => { c with rcReserved := .ignore })))
      (fun t => (readBytes t.mem 0x1024 4, t.pc)) = some (some [0x3F, 0xC0, 0x00, 0x00], 0x00010004) := by
  decide +kernel

/-- V5 row 15. -/
theorem test_stfsux_doubles_its_base :
    nextOf (step (launch 0x7C231D6E [(3, 0x80001800)] [(1, 0x4000000000000000)]))
      (fun t => (readBytes t.mem 0x3000 4, readGpr t 3)) = some (some [0x40, 0x00, 0x00, 0x00], 0x3000) := by
  decide +kernel

/-- P2 steps 2 and 3 in one: the high half of `RA` is cleared, and a signalling NaN sets `VXSNAN`. -/
theorem test_stfsux_clears_high_half :
    nextOf (step (withCfg (launch 0x7C63256E [(3, 0xFFFFFFFF00003010), (4, 0x10)] [(3, 0x7FF00000DEADBEEF)])
        (fun c => { c with nanNarrow := .recommended })))
      (fun t => (readBytes t.mem 0x3020 4, readGpr t 3, readGpr t 4, t.fpscr.flags)) =
      some (some [0x7F, 0xC0, 0x00, 0x06], 0x3020, 0x10, FpFlags.invalid) := by
  decide +kernel

/-! ### Conditions that can be evaluated -/

/-- `StoreCanRun`, evaluated. -/
theorem storeCanRun_of_none {s : State} {ea : Addr} {fs : RegNum} (h : storeStop s ea fs = none) :
    StoreCanRun s ea fs := (storeStop_none s ea fs).mp h

/-- `CanRun`, evaluated. -/
theorem canRun_of {i : Instr} {s : State} (h1 : s.msr.fp = true ∧ s.pc.toNat < 0xFFFFFFFC)
    (h2 : i.wellFormed = true ∨ s.cfg.invalidFormRA0 = .snapshot) (h3 : storeStop s (storeAddress i s) i.fs = none) :
    CanRun i s := ⟨h1, h2, storeCanRun_of_none h3⟩

/-- `WordAtPc`, evaluated. -/
theorem wordAtPc_of {s : State} {w : Word} (h1 : fetchStop s = none) (h2 : memRead s.mem s.pc 4 = some w.toNat) :
    WordAtPc s w := by
  obtain ⟨a, b, c⟩ := (fetchStop_none s).mp h1
  exact ⟨a, fun x hx => ⟨b x hx, c x hx⟩, h2⟩

/-- Every byte of a store has a property, evaluated. -/
theorem inStore_all {ea : Addr} {p : Addr → Bool} {v : Bool} (h : (lanes ea).all (fun a => p a == v) = true) :
    ∀ a, InStore ea a → p a = v := by
  intro a ha
  simpa using List.all_eq_true.mp h a ((mem_lanes ea a).mpr ha)

/-! ### Witnesses: the hypotheses of the obligations can be met -/

/-- `stfs f1, -4(0)`: the highest address that is not refused (V5 row 9), at the last `pc` from which `pc + 4`
is an instruction's address. -/
def topStore : State :=
  { launch 0xD020FFFC [] [(1, 0x3FF8000000000000)] with pc := 0xFFFFFFF8 }

theorem test_witness_StfsCompletes : CanRun (.stfs 1 0 0xFFFC) topStore :=
  canRun_of (by decide) (by decide) (by decide +kernel)

/-- A store that wraps at the top of the address space (V5 row 8). -/
theorem test_witness_StfsCompletes_wrapping :
    CanRun (.stfs 1 0 0xFFFD) (withCfg (launch 0xD020FFFD [] []) (fun c => { c with eaTopWrap := .wrap })) ∧
    storeAddress (.stfs 1 0 0xFFFD) (withCfg (launch 0xD020FFFD [] []) (fun c => { c with eaTopWrap := .wrap })) =
      0xFFFFFFFD :=
  ⟨canRun_of (by decide) (by decide) (by decide +kernel), by decide⟩

theorem test_witness_StfsuCompletes :
    CanRun (.stfsu 2 3 0x0004) (launch 0xD4430004 [(3, 0x2000)] [(2, 0xC004000000000000)]) ∧
    CanRun (.stfsu 1 0 0x0004)
      (withCfg (launch 0xD4200004 [(0, 0x3000)] []) (fun c => { c with invalidFormRA0 := .snapshot })) :=
  ⟨canRun_of (by decide) (by decide) (by decide +kernel), canRun_of (by decide) (by decide) (by decide +kernel)⟩

theorem test_witness_StfsxCompletes :
    CanRun (.stfsx 1 3 4) (launch 0x7C23252E [(3, 0xFFFFFFFF00003000), (4, 0x10)] [(1, 0x40FE240000000000)]) :=
  canRun_of (by decide) (by decide) (by decide +kernel)

/-- A misaligned store to cache-inhibited storage under `CI_MISALIGNED = perform`, `RB` = `RA`. -/
theorem test_witness_StfsuxCompletes :
    CanRun (.stfsux 1 3 3) (withCfg (launch 0x7C231D6E [(3, 0x80003001)] [])
      (fun c => { ciPage c with ciMisaligned := .perform })) :=
  canRun_of (by decide) (by decide) (by decide +kernel)

theorem test_witness_encodings :
    (Instr.stfsu 31 1 0xFFFF).wellFormed = true ∧ decode 0xD7FFFFFF = .instr (.stfsu 31 31 0xFFFF) := by decide

/-- OpcodeRowsAreExact: each row of the table accepts its own opcode word (S1). DisplacementIsSigned: the added
bits of a negative displacement, at both ends of their range. -/
theorem test_witness_fields :
    opcodeTable.map (fun p => [0xD0000000, 0xD4000000, 0x7C00052E, 0x7C00056E].countP p.accepts) = [1, 1, 1, 1] ∧
    (dispVal 0x8000).getLsbD 16 = true ∧ (dispVal 0x8000).getLsbD 63 = true ∧
    (dispVal 0x7FFF).getLsbD 16 = false := by decide

/-- A flush of a denormal to zero with the `UX` exception enabled: nothing is stored (log 17). -/
theorem test_enabled_trap_is_refused :
    stopOf (exec (.stfs 1 3 0x0008) { launch 0 [] [(1, 0x37D0000000000000)] with
      fpscr := { State.reset.fpscr with ni := true, enables := ⟨false, false, true, false⟩ } }) =
      some (.refused .enabledTrap) := by
  decide +kernel

/-- FloatingPointUnavailable, both clauses (V5 row 2). -/
theorem test_witness_FloatingPointUnavailable :
    (({ launch 0xD0230008 [] [] with msr := ⟨false⟩ } : State).msr.fp = false ∧
      FormRuns (.stfs 1 3 0x0008) { launch 0xD0230008 [] [] with msr := ⟨false⟩ }) ∧
    exec (.stfs 1 3 0x0008) { launch 0xD0230008 [] [] with msr := ⟨false⟩ } =
      .fault (.raised .floatingPointUnavailable) :=
  ⟨⟨rfl, .inl rfl⟩, rfl⟩

/-- The state of V5 row 10: a misaligned store of a signalling NaN to cache-inhibited storage. -/
def ciState : State := withCfg (launch 0xD0230001 [(3, 0x6000)] [(1, 0x7FF0000000000001)]) ciPage

/-- AlignmentException, both clauses, the second by V5 row 10. -/
theorem test_witness_AlignmentException :
    (ciState.msr.fp = true ∧ FormRuns (.stfs 1 3 0x0001) ciState ∧
      ((storeAddress (.stfs 1 3 0x0001) ciState).toNat ≤ 0xFFFFFFFC ∨ ciState.cfg.eaTopWrap = .wrap) ∧
      (storeAddress (.stfs 1 3 0x0001) ciState).toNat % 4 ≠ 0 ∧
      (∃ a, InStore (storeAddress (.stfs 1 3 0x0001) ciState) a ∧ cacheInhibited ciState a = true) ∧
      ciState.cfg.ciMisaligned = .fault) ∧
    exec (.stfs 1 3 0x0001) ciState = .fault (.raised (.alignment 0x00006001)) :=
  ⟨⟨rfl, .inl rfl, by decide, by decide, (lanes_any _ _).mp (by decide), rfl⟩, rfl⟩

/-- P5 step 1. -/
def unalignedState : State := launch 0xD0230000 [(3, 0x6001)] [(1, 0x3FF0000000000000)]

theorem test_witness_MisalignedStoreIsPerformed :
    Ready unalignedState ∧ FormRuns (.stfs 1 3 0) unalignedState ∧
    (storeAddress (.stfs 1 3 0) unalignedState).toNat % 4 ≠ 0 ∧
    (∀ a, InStore (storeAddress (.stfs 1 3 0) unalignedState) a → cacheInhibited unalignedState a = false) ∧
    ((storeAddress (.stfs 1 3 0) unalignedState).toNat ≤ 0xFFFFFFFC ∨ unalignedState.cfg.eaTopWrap = .wrap) ∧
    (∀ a, InStore (storeAddress (.stfs 1 3 0) unalignedState) a →
      mapped unalignedState a = true ∧ inText unalignedState a = false) ∧
    unalignedState.fpscr.enables.trapOn
      (sfd unalignedState.cfg unalignedState.fpscr.rn unalignedState.fpscr.ni (readFpr unalignedState 1)).2 = false :=
  ⟨⟨rfl, by decide⟩, .inl rfl, by decide, inStore_all (by decide), by decide,
    fun a ha => ⟨inStore_all (p := mapped unalignedState) (by decide) a ha, inStore_all (by decide) a ha⟩,
    by decide +kernel⟩

/-- OutcomesInOrder, clause by clause: V5 rows 3, 2, 7, 10, 13 and 14, the enabled trap and the last `pc`. -/
theorem test_witness_OutcomesInOrder :
    stopOf (exec (.stfsu 1 0 0x0004) { launch 0xD4200004 [] [] with msr := ⟨false⟩ }) = some (.refused .invalidForm) ∧
    stopOf (exec (.stfs 1 0 0xFFFD) { launch 0xD020FFFD [] [] with msr := ⟨false⟩ }) =
      some (.fault (.raised .floatingPointUnavailable)) ∧
    stopOf (exec (.stfs 1 0 0xFFFD) (launch 0xD020FFFD [] [])) = some (.refused .eaTop) ∧
    stopOf (exec (.stfs 1 3 0x0001) ciState) = some (.fault (.raised (.alignment 0x00006001))) ∧
    stopOf (exec (.stfsu 2 3 0x0004) (withCfg (launch 0xD4430004 [(3, 0x7FFC)] []) hole)) =
      some (.fault (.unmappedStore 0x00008000)) ∧
    stopOf (exec (.stfs 1 3 0xFFFE) (launch 0xD023FFFE [(3, 0x00010000)] [])) = some (.refused .storeToCode) ∧
    stopOf (exec (.stfs 1 3 0) { launch 0 [] [(1, 0x3FB999999999999A)] with
      fpscr := { State.reset.fpscr with enables := ⟨true, false, false, false⟩ } }) = some (.refused .enabledTrap) ∧
    stopOf (exec (.stfs 1 3 0) { launch 0 [] [] with pc := 0xFFFFFFFC }) = some (.refused .pcTop) := by
  decide +kernel

theorem test_witness_StepRunsDecodedInstruction :
    WordAtPc (launch 0xD0230008 [(3, 0x1000)] []) 0xD0230008 ∧ decode 0xD0230008 = .instr (.stfs 1 3 0x0008) :=
  ⟨wordAtPc_of (by decide) (by decide), by decide⟩

/-- StepOnOtherVerdicts: a word of each verdict, under both values of each parameter. -/
theorem test_witness_StepOnOtherVerdicts :
    (WordAtPc (launch 0x7C0005AE [] []) 0x7C0005AE ∧ decode 0x7C0005AE = .notInScope) ∧
    (WordAtPc (launch 0x7C65352F [] []) 0x7C65352F ∧ decode 0x7C65352F = .reservedRc (.stfsx 3 5 6) ∧
      (launch 0x7C65352F [] []).cfg.rcReserved = .refuse) ∧
    (WordAtPc (withCfg (launch 0x7C65352F [] []) (fun c => { c with rcReserved := .ignore })) 0x7C65352F ∧
      (withCfg (launch 0x7C65352F [] []) (fun c => { c with rcReserved := .ignore })).cfg.rcReserved = .ignore) ∧
    (WordAtPc (launch 0xD4200004 [] []) 0xD4200004 ∧ decode 0xD4200004 = .invalidForm (.stfsu 1 0 0x0004) ∧
      (launch 0xD4200004 [] []).cfg.invalidFormRA0 = .refuse) ∧
    (WordAtPc (withCfg (launch 0xD4200004 [] []) (fun c => { c with invalidFormRA0 := .snapshot })) 0xD4200004 ∧
      (withCfg (launch 0xD4200004 [] []) (fun c => { c with invalidFormRA0 := .snapshot })).cfg.invalidFormRA0 =
        .snapshot) :=
  ⟨⟨wordAtPc_of (by decide) (by decide), by decide⟩, ⟨wordAtPc_of (by decide) (by decide), by decide, rfl⟩,
    ⟨wordAtPc_of (by decide) (by decide), rfl⟩, ⟨wordAtPc_of (by decide) (by decide), by decide, rfl⟩,
    ⟨wordAtPc_of (by decide) (by decide), rfl⟩⟩

/-- StepWithoutWord, clause by clause (the first is V5 row 16), at the highest word for the last. -/
theorem test_witness_StepWithoutWord :
    stopOf (step { launch 0xD0230000 [] [] with pc := 0x00010002 }) = some (.refused .pcMisaligned) ∧
    stopOf (step { withCfg (launch 0xD0230000 [] []) hole with pc := 0x00008000 }) =
      some (.fault (.unmappedFetch 0x00008000)) ∧
    stopOf (step { launch 0xD0230000 [] [] with written := [0x00010003] }) = some (.refused .fetchOfStoredBytes) ∧
    stopOf (step { State.reset with pc := 0xFFFFFFFC }) = some (.fault (.unwrittenFetch 0xFFFFFFFC)) := by
  decide +kernel

theorem test_witness_LaunchPremisesSuffice :
    WordAtPc unalignedState 0xD0230000 ∧ decode 0xD0230000 = .instr (.stfs 1 3 0) ∧ Ready unalignedState ∧
    StoreCanRun unalignedState (storeAddress (.stfs 1 3 0) unalignedState) 1 :=
  ⟨wordAtPc_of (by decide) (by decide), by decide, ⟨rfl, by decide⟩, storeCanRun_of_none (by decide +kernel)⟩

/-- PlacedWordIsFetched, at the last word of the address space. -/
theorem test_witness_PlacedWordIsFetched :
    ({ State.reset with pc := 0xFFFFFFFC } : State).pc.toNat % 4 = 0 ∧
    ∀ a, InStore ({ State.reset with pc := 0xFFFFFFFC } : State).pc a →
      mapped { State.reset with pc := 0xFFFFFFFC } a = true :=
  ⟨by decide, inStore_all (by decide)⟩

/-- MemWriteIsBigEndian: a list of bytes that wraps at the top, and an address outside it. -/
theorem test_witness_MemWriteIsBigEndian :
    [0x3F, 0x80, 0x00, 0x01].length ≤ 2 ^ 32 ∧
    readByte (writeBytes [] 0xFFFFFFFD [0x3F, 0x80, 0x00, 0x01]) 0xFFFFFFFD = some 0x3F ∧
    readByte (writeBytes [] 0xFFFFFFFD [0x3F, 0x80, 0x00, 0x01]) 0 = some 0x01 ∧
    readByte (writeBytes [] 0xFFFFFFFD [0x3F, 0x80, 0x00, 0x01]) 1 = none := by decide

/-- The statements about a next state of `exec`: one for each of the four instructions, the last three at
`q` other than `fs`, than the registers read and than the registers written. -/
theorem test_witness_exec_next :
    (∃ t, exec (.stfs 1 0 0xFFFC) topStore = .next t) ∧
    (∃ t, exec (.stfsu 2 3 0x0004) (launch 0 [(3, 0x2000)] []) = .next t) ∧
    (∃ t, exec (.stfsx 1 3 4) (launch 0 [(3, 0x2000)] []) = .next t) ∧
    (∃ t, exec (.stfsux 1 3 4) (launch 0 [(3, 0x2000)] []) = .next t) ∧
    (2 : RegNum) ≠ (Instr.stfs 1 0 0xFFFC).fs ∧ (0 : RegNum) ∉ gprsRead (.stfs 1 0 0xFFFC) ∧
    (0 : RegNum) ∉ gprsRead (.stfsx 1 0 4) ∧ (4 : RegNum) ∉ gprsWritten (.stfsux 1 3 4) ∧
    (3 : RegNum) ∈ gprsWritten (.stfsux 1 3 4) :=
  ⟨⟨_, rfl⟩, ⟨_, rfl⟩, ⟨_, rfl⟩, ⟨_, rfl⟩, by decide, by decide, by decide, by decide, by decide⟩

/-- LaterStoreWins: the overlapping stores of P5. -/
theorem test_witness_LaterStoreWins :
    ∃ t u, exec (.stfs 1 3 0) unalignedState = .next t ∧ exec (.stfs 2 3 0x0002) t = .next u ∧
      readBytes u.mem 0x6001 6 = some [0x3F, 0x80, 0x00, 0x00, 0x00, 0x00] :=
  ⟨_, _, rfl, rfl, by decide +kernel⟩

/-- TextNeverChanges, ControlStateNeverChanges: a step that is taken, and an address of the text. -/
theorem test_witness_step_next :
    (∃ t, step unalignedState = .next t) ∧ inText unalignedState 0x00010003 = true :=
  ⟨⟨_, rfl⟩, by decide⟩

/-- FlagsAreSticky: all four flags set at the start (V5 row 18), and another profile. -/
theorem test_witness_FlagsAreSticky :
    (∃ t, step { unalignedState with fpscr := { State.reset.fpscr with flags := ⟨true, true, true, true⟩ } } =
      .next t) ∧
    (∃ t, step (withCfg unalignedState (fun c => { c with profile := .snapshot })) = .next t) ∧
    (withCfg unalignedState (fun c => { c with profile := .snapshot })).cfg.profile ≠ .architectural :=
  ⟨⟨_, rfl⟩, ⟨_, rfl⟩, by decide⟩

/-- StoreKillsReservations: a reservation on the granule stored to and one on another. -/
theorem test_witness_StoreKillsReservations :
    nextOf (exec (.stfs 1 3 0x0008) { launch 0 [(3, 0x1000)] [] with
      res := [⟨0, 0x1004⟩, ⟨0, 0x1008⟩, ⟨1, 0x1008⟩, ⟨1, 0x2000⟩] }) (fun t => t.res) =
      some [⟨0, 0x1004⟩, ⟨1, 0x2000⟩] := by
  decide +kernel

/-- RunsAreStraightLines: two steps of P1. -/
theorem test_witness_RunsAreStraightLines :
    ∃ t, Host.Core.run Sys2Proof.core 2
      { launch 0xD0230000 [(3, 0x2000)] [] with
        mem := memWrite (launch 0xD0230000 [] []).mem 0x00010004 0xD4430004 } = .next t ∧ t.pc = 0x00010008 :=
  ⟨_, rfl, by decide +kernel⟩

theorem test_witness_OverlapReadsBeforeWrite :
    ∃ t, exec (.stfsux 1 3 3) (launch 0 [(3, 0x80001800)] []) = .next t := ⟨_, rfl⟩

/-- NextStoreSeesUpdate: a base register that is not `r0`, and `r0` under `INVALID_FORM_RA0 = snapshot`. -/
theorem test_witness_NextStoreSeesUpdate :
    (Instr.stfsu 2 3 0x0004).isUpdate = true ∧ (Instr.stfsu 2 3 0x0004).ra ≠ 0 ∧
    (∃ t, exec (.stfsu 2 3 0x0004) (launch 0 [(3, 0x2000)] []) = .next t) ∧
    (Instr.stfsux 1 0 4).isUpdate = true ∧
    ∃ t, exec (.stfsux 1 0 4) (withCfg (launch 0 [(0, 0x3000)] []) (fun c => { c with invalidFormRA0 := .snapshot })) =
      .next t := ⟨rfl, by decide, ⟨_, rfl⟩, rfl, _, rfl⟩

/-- NanIsQuieted, SignallingNanAlone: a quiet and a signalling NaN. -/
theorem test_witness_nans :
    (exponentOf 0x7FF8000000000000 = 2047 ∧ fractionOf 0x7FF8000000000000 ≠ 0 ∧
      (0x7FF8000000000000 : Dword).getLsbD 51 = true) ∧
    (exponentOf 0x7FF0000000000001 = 2047 ∧ fractionOf 0x7FF0000000000001 ≠ 0 ∧
      (0x7FF0000000000001 : Dword).getLsbD 51 = false) := by decide

/-- InexactIffValueDiffers, OverflowThreshold: finite operands, and one that is not. -/
theorem test_witness_finite :
    exponentOf 0x7FEFFFFFFFFFFFFF ≠ 2047 ∧ exponentOf 0 ≠ 2047 ∧ ¬ exponentOf 0x7FF0000000000000 ≠ 2047 := by decide

/-- FlushToZero, UnderflowIffTinyAndDiffers: the smallest and the largest magnitude below `2^-126`, and `2^-126`. -/
theorem test_witness_FlushToZero :
    (0 < doubleMagUnits 0x0000000000000001 ∧ doubleMagUnits 0x0000000000000001 < 2 ^ 948) ∧
    (0 < doubleMagUnits 0x380FFFFFFFFFFFFF ∧ doubleMagUnits 0x380FFFFFFFFFFFFF < 2 ^ 948) ∧
    ¬ (0 < doubleMagUnits 0x3810000000000000 ∧ doubleMagUnits 0x3810000000000000 < 2 ^ 948) ∧
    ¬ (0 < doubleMagUnits 0x8000000000000000 ∧ doubleMagUnits 0x8000000000000000 < 2 ^ 948) := by
  decide +kernel

/-- RoundingIsDirected: in each mode, operands of both signs whose conversion does not overflow, and under `nearest` a
tie of a normal and of a tiny operand. -/
theorem test_witness_RoundingIsDirected :
    exponentOf 0xBFB999999999999A ≠ 2047 ∧
    [RoundingMode.nearest, .zero, .pinf, .minf].all (fun rn =>
      !(sfdArchitectural .recommended rn false 0xBFB999999999999A).2.ox &&
      !(sfdArchitectural .recommended rn false 0x0000000000000001).2.ox) = true ∧
    [(0x4170000010000000 : Dword), 0x3690000000000000].all (fun b =>
      exponentOf b != 2047 && !(sfdArchitectural .recommended .nearest false b).2.ox &&
      2 * (singleUnits (sfdArchitectural .recommended .nearest false b).1 - doubleUnits b).natAbs == ulpUnits b) =
      true := by
  decide +kernel

/-- OverflowResult: an overflow in each mode. -/
theorem test_witness_OverflowResult :
    [RoundingMode.nearest, .zero, .pinf, .minf].all (fun rn =>
      (sfdArchitectural .recommended rn false 0x48078287F49C4A1D).2.ox &&
      (sfdArchitectural .recommended rn false 0xC8078287F49C4A1D).2.ox) = true := by
  decide +kernel

/-- ConversionIsTheProfiles: each profile, and operands of each defined branch of `book` at the ends of its range. -/
theorem test_witness_ConversionIsTheProfiles :
    (Config.standard.profile = .architectural ∧
      ({ Config.standard with profile := .book } : Config).profile = .book) ∧
    (896 < exponentOf 0x3810000000000000 ∧ (0x8000000000000000 : Dword).extractLsb' 0 63 = 0) ∧
    (874 ≤ exponentOf 0x36A0000000000000 ∧ exponentOf 0x36A0000000000000 ≤ 896) ∧
    (874 ≤ exponentOf 0x380FFFFFFFFFFFFF ∧ exponentOf 0x380FFFFFFFFFFFFF ≤ 896) := by decide

theorem test_witness_SnapshotProfile :
    ({ Config.standard with profile := .snapshot } : Config).profile = .snapshot := rfl

/-- ProfilesAgreeOnCore, CoreStoreSameUnderEveryProfile: each of (a) to (d) of R133 at the ends of its range. -/
theorem test_witness_ProfilesAgreeOnCore :
    InCore 0x8000000000000000 ∧ InCore 0xFFF0000000000000 ∧ InCore 0x3810000000000000 ∧
    InCore 0x47EFFFFFE0000000 ∧ IsSingleDenormal 0x36A0000000000000 ∧ IsSingleDenormal 0x380FFFFFC0000000 :=
  ⟨.inl (by decide), .inr (.inl (by decide)), .inr (.inr (by decide)), .inr (.inr (by decide)),
    by simp only [IsSingleDenormal]; decide, by simp only [IsSingleDenormal]; decide⟩

theorem test_witness_CoreStoreSameUnderEveryProfile :
    InCore (readFpr unalignedState (Instr.stfs 1 3 0).fs) ∧
    ∃ t, exec (.stfs 1 3 0)
      { unalignedState with cfg := { unalignedState.cfg with profile := .book } } = .next t :=
  ⟨.inr (.inr (by decide)), _, rfl⟩

/-- StepKeepsInvariant: a state with a byte stored, a reservation, and a step that is taken. -/
def invState : State :=
  { launch 0xD0230000 [(3, 0x6001)] [] with
    mem := (0x2000, 0x3F) :: (launch 0xD0230000 [] []).mem, written := [0x2000], res := [⟨0, 0x1000⟩, ⟨1, 0x6004⟩] }

theorem test_witness_StepKeepsInvariant : invState.Inv ∧ ∃ t, step invState = .next t := by
  refine ⟨?_, _, rfl⟩
  constructor <;> decide +kernel

/-- Every word of the opcode table with a valid form runs as the first instruction after reset. -/
theorem test_first_instruction_after_reset :
    step (State.reset.withFetchWord 32 0xD0230008) = exec (.stfs 1 3 0x0008) (State.reset.withFetchWord 32 0xD0230008) ∧
    step (State.reset.withFetchWord 32 0xD421FFF8) = exec (.stfsu 1 1 0xFFF8) (State.reset.withFetchWord 32 0xD421FFF8) ∧
    step (State.reset.withFetchWord 32 0x7C65352E) = exec (.stfsx 3 5 6) (State.reset.withFetchWord 32 0x7C65352E) ∧
    step (State.reset.withFetchWord 32 0x7C87456E) = exec (.stfsux 4 7 8) (State.reset.withFetchWord 32 0x7C87456E) :=
  ⟨rfl, rfl, rfl, rfl⟩

end Sys2Proof.Machine.Tests
end

section
/-! The statements about the machine's state (10_state.md). First the completed state field by field, what a store
leaves readable, and which parts of a state an instruction depends on; then the invariant of the state and the rules
each step or instruction keeps. -/

namespace Sys2Proof.Machine

/-! ### The completed state, field by field -/

@[simp] theorem completed_fpr (i : Instr) (s : State) : (completed i s).fpr = s.fpr := by cases i <;> rfl
@[simp] theorem completed_pc (i : Instr) (s : State) : (completed i s).pc = s.pc + 4 := by cases i <;> rfl
@[simp] theorem completed_msr (i : Instr) (s : State) : (completed i s).msr = s.msr := by cases i <;> rfl
@[simp] theorem completed_cfg (i : Instr) (s : State) : (completed i s).cfg = s.cfg := by cases i <;> rfl
@[simp] theorem completed_fpscr (i : Instr) (s : State) :
    (completed i s).fpscr = s.fpscr.raise (converted s i.fs).2 := by cases i <;> rfl
@[simp] theorem completed_mem (i : Instr) (s : State) :
    (completed i s).mem = memWrite s.mem (storeAddress i s) (converted s i.fs).1 := by cases i <;> rfl
@[simp] theorem completed_res (i : Instr) (s : State) :
    (completed i s).res = resKill s.cfg s.res (storeAddress i s) := by cases i <;> rfl
@[simp] theorem completed_written (i : Instr) (s : State) :
    (completed i s).written = noteStore s.written (storeAddress i s) := by cases i <;> rfl

@[simp] theorem inText_completed (i : Instr) (s : State) (a : Addr) : inText (completed i s) a = inText s a := by
  simp [inText]

theorem gprsWritten_eq (i : Instr) : gprsWritten i = if i.isUpdate then [i.ra] else [] := by cases i <;> rfl

/-- A general register of the completed state, by the table of 10_state.md R22. -/
theorem readGpr_completed (i : Instr) (s : State) (q : RegNum) :
    readGpr (completed i s) q = if q ∈ gprsWritten i then updateVal (storeAddress i s) else readGpr s q := by
  rw [gprsWritten_eq]
  cases hu : i.isUpdate with
  | false => simp [readGpr, completed_gpr, hu]
  | true =>
    have hg : (completed i s).gpr = (writeGpr s i.ra (updateVal (storeAddress i s))).gpr := by
      simp [completed_gpr, hu]
    have hread : readGpr (completed i s) q = readGpr (writeGpr s i.ra (updateVal (storeAddress i s))) q := by
      simp only [readGpr, hg]
    by_cases hq : q = i.ra
    · subst hq; simp [hread]
    · simp [hread, hq]

/-! ### What a store leaves readable -/

theorem readByte_writeBytes_ne_none (bs : List Byte) (m : Memory) (a : Addr) (n : Nat)
    (h : readByte m n ≠ none) : readByte (writeBytes m a bs) n ≠ none := by
  induction bs generalizing m a with
  | nil => exact h
  | cons b bs ih => exact ih _ _ (readByte_writeByte_ne_none _ _ _ _ h)

/-- After a store a byte has a value if it had one or is one of the four. -/
theorem readByte_memWrite_ne_none (m : Memory) (a : Addr) (w : Word) (n : Nat)
    (h : readByte m n ≠ none ∨ ∃ x, InStore a x ∧ n = x.toNat) : readByte (memWrite m a w) n ≠ none := by
  obtain h | ⟨x, hx, rfl⟩ := h
  · exact readByte_writeBytes_ne_none _ _ _ _ h
  · obtain ⟨h0, h1, h2, h3⟩ := readByte_memWrite m a w
    have hlane : x = a ∨ x = a + 1 ∨ x = a + 2 ∨ x = a + 3 := by simpa [lanes] using (mem_lanes a x).mpr hx
    obtain rfl | rfl | rfl | rfl := hlane
    · exact Option.ne_none_iff_exists'.mpr ⟨_, h0⟩
    · exact Option.ne_none_iff_exists'.mpr ⟨_, h1⟩
    · exact Option.ne_none_iff_exists'.mpr ⟨_, h2⟩
    · exact Option.ne_none_iff_exists'.mpr ⟨_, h3⟩

theorem readBytes_memWrite (m : Memory) (a : Addr) (w : Word) :
    readBytes (memWrite m a w) a 4 = some (bytesOfWord w) := by
  obtain ⟨h0, h1, h2, h3⟩ := readByte_memWrite m a w
  exact readBytes_four _ _ _ _ _ _ h0 h1 h2 h3

theorem numberOfBytes_bytesOfWord (w : Word) : numberOfBytes (bytesOfWord w) = w.toNat := by
  simp only [bytesOfWord, numberOfBytes_four, BitVec.extractLsb'_toNat, Nat.shiftRight_eq_div_pow]
  have := w.isLt
  omega

/-- A 4-byte read at the address of a store gives the word stored (20_memory.md R53). -/
@[simp] theorem memRead_memWrite (m : Memory) (a : Addr) (w : Word) :
    memRead (memWrite m a w) a 4 = some w.toNat := by
  simp [memRead, readBytes_memWrite, numberOfBytes_bytesOfWord]

/-! ### The parts of a state an instruction depends on -/

/-- Two states agree on everything the tests and the conversion of an instruction look at
(40_fp_store_single.md R101). -/
structure SameInputs (i : Instr) (s s' : State) : Prop where
  cfg : s'.cfg = s.cfg
  msr : s'.msr = s.msr
  pc : s'.pc = s.pc
  fpscr : s'.fpscr = s.fpscr
  address : storeAddress i s' = storeAddress i s
  operand : readFpr s' i.fs = readFpr s i.fs

theorem SameInputs.converted {i : Instr} {s s' : State} (h : SameInputs i s s') :
    converted s' i.fs = converted s i.fs := by
  simp only [Machine.converted, h.cfg, h.fpscr, h.operand]

theorem SameInputs.canRun {i : Instr} {s s' : State} (h : SameInputs i s s') (hcan : CanRun i s) : CanRun i s' := by
  obtain ⟨⟨hfp, hpc⟩, hform, hstore⟩ := hcan
  have hmapped : mapped s' = mapped s := by funext a; simp only [mapped, h.cfg]
  have htext : inText s' = inText s := by funext a; simp only [inText, h.cfg]
  have hci : cacheInhibited s' = cacheInhibited s := by funext a; simp only [cacheInhibited, h.cfg]
  refine ⟨⟨by rwa [h.msr], by rwa [h.pc]⟩, by rwa [FormRuns, h.cfg], ?_⟩
  obtain ⟨htop, halign, hmap, hnot, htrap⟩ := hstore
  rw [h.address]
  exact ⟨by rwa [h.cfg], by rwa [hci, h.cfg], by rwa [hmapped], by rwa [htext],
    by rwa [h.cfg, h.fpscr, h.operand]⟩

/-- An instruction that completes at `s` completes at `s'` too, if the two agree on its inputs. -/
theorem SameInputs.exec_next {i : Instr} {s s' : State} (h : SameInputs i s s') (hcan : CanRun i s) :
    exec i s' = .next (completed i s') :=
  (Machine.exec_next i s' _).mpr ⟨h.canRun hcan, rfl⟩

/-! ### A floating-point register changed -/

/-- The state with a value placed in a floating-point register, which no instruction does (10_state.md R25). -/
def writeFpr (s : State) (q : RegNum) (v : Dword) : State := { s with fpr := s.fpr.set q.val v }

theorem readFpr_writeFpr_other (s : State) (q r : RegNum) (v : Dword) (h : q ≠ r) :
    readFpr (writeFpr s q v) r = readFpr s r := by
  have hv : q.val ≠ r.val := fun e => h (Fin.ext e)
  simp [readFpr, writeFpr, Vector.getElem_set_ne, hv]

theorem sameInputs_writeFpr (i : Instr) (s : State) (q : RegNum) (v : Dword) (h : q ≠ i.fs) :
    SameInputs i s (writeFpr s q v) :=
  ⟨rfl, rfl, rfl, rfl, by cases i <;> rfl, readFpr_writeFpr_other s q i.fs v h⟩

theorem storeEffect_writeFpr (s : State) (ea : Addr) (fs q : RegNum) (v : Dword) (h : q ≠ fs) :
    storeEffect (writeFpr s q v) ea fs = writeFpr (storeEffect s ea fs) q v := by
  have hc : converted (writeFpr s q v) fs = converted s fs := by
    simp only [converted, readFpr_writeFpr_other s q fs v h]
    rfl
  rw [storeEffect, hc]
  rfl

theorem completed_writeFpr (i : Instr) (s : State) (q : RegNum) (v : Dword) (h : q ≠ i.fs) :
    completed i (writeFpr s q v) = writeFpr (completed i s) q v := by
  rw [completed, (sameInputs_writeFpr i s q v h).address, storeEffect_writeFpr _ _ _ _ _ h]
  cases i <;> rfl

/-! ### A general register changed -/

theorem readGpr_writeGpr_of_mem_read {i : Instr} {q r : RegNum} (s : State) (v : Dword)
    (h : q ∉ gprsRead i) (hr : r ∈ gprsRead i) : readGpr (writeGpr s q v) r = readGpr s r :=
  readGpr_writeGpr_other s q r v fun e => h (e ▸ hr)

theorem storeAddress_writeGpr (i : Instr) (s : State) (q : RegNum) (v : Dword) (h : q ∉ gprsRead i) :
    storeAddress i (writeGpr s q v) = storeAddress i s := by
  have hread : ∀ r ∈ gprsRead i, readGpr (writeGpr s q v) r = readGpr s r :=
    fun r hr => readGpr_writeGpr_of_mem_read s v h hr
  cases i with
  | stfs fs ra d => by_cases h0 : ra = 0 <;> simp_all [gprsRead, storeAddress, eaStfs, ra0Val]
  | stfsu fs ra d => simp_all [gprsRead, storeAddress, eaStfsu, raVal]
  | stfsx fs ra rb => by_cases h0 : ra = 0 <;> simp_all [gprsRead, storeAddress, eaStfsx, ra0Val, rbVal]
  | stfsux fs ra rb => simp_all [gprsRead, storeAddress, eaStfsux, raVal, rbVal]

theorem sameInputs_writeGpr (i : Instr) (s : State) (q : RegNum) (v : Dword) (h : q ∉ gprsRead i) :
    SameInputs i s (writeGpr s q v) :=
  ⟨rfl, rfl, rfl, rfl, storeAddress_writeGpr i s q v h, rfl⟩

theorem writeGpr_comm (s : State) (q r : RegNum) (v w : Dword) (h : q ≠ r) :
    writeGpr (writeGpr s q v) r w = writeGpr (writeGpr s r w) q v := by
  simp only [writeGpr]
  rw [Vector.set_comm _ _ (fun e => h (Fin.ext e))]

/-- The base register of an update form is one the table of 10_state.md R22 lists as read. -/
theorem ra_mem_gprsRead (i : Instr) (h : i.isUpdate = true) : i.ra ∈ gprsRead i := by
  cases i <;> simp_all [Instr.isUpdate, Instr.ra, gprsRead]

theorem completed_writeGpr (i : Instr) (s : State) (q : RegNum) (v : Dword) (h : q ∉ gprsRead i) :
    completed i (writeGpr s q v) = writeGpr (completed i s) q v := by
  have hstore : ∀ ea, storeEffect (writeGpr s q v) ea i.fs = writeGpr (storeEffect s ea i.fs) q v := fun _ => rfl
  simp only [completed, storeAddress_writeGpr i s q v h, hstore]
  cases hu : i.isUpdate with
  | false => rfl
  | true =>
    have hq : q ≠ i.ra := fun e => h (e ▸ ra_mem_gprsRead i hu)
    simp only [if_true, writeGpr_comm _ q i.ra _ _ hq]
    rfl

/-! ### The invariant -/

/-- A completed instruction keeps the invariant: what it writes is in canonical form, holds a value and, since the
instruction ran, lies outside the program text (20_memory.md R68). -/
theorem completed_inv (i : Instr) (s : State) (hcan : CanRun i s) (h : s.Inv) : (completed i s).Inv where
  mem := by simpa using memWrite_wf _ _ _ h.mem
  res := by simpa using resKill_sorted _ _ _ h.res
  granule := by
    intro r hr
    rw [completed_res, mem_resKill] at hr
    simpa using h.granule r hr.1
  writtenSorted := by simpa using noteStore_sorted _ _ h.writtenSorted
  writtenHeld := by
    intro n hn
    rw [completed_written, mem_noteStore] at hn
    rw [completed_mem]
    refine ⟨?_, readByte_memWrite_ne_none _ _ _ _ (hn.imp_left fun hn => (h.writtenHeld n hn).2)⟩
    obtain hn | ⟨x, -, rfl⟩ := hn
    · exact (h.writtenHeld n hn).1
    · exact x.isLt
  textUnstored := by
    intro n hn
    rw [completed_written, mem_noteStore] at hn
    rw [inText_completed]
    obtain hn | ⟨x, hx, rfl⟩ := hn
    · exact h.textUnstored n hn
    · simpa using hcan.store.notText x hx
  pcAligned := by
    have := h.pcAligned
    simp [BitVec.toNat_add]
    omega
  config := by simpa using h.config

/-- Settles O54: a step that is taken leaves the completed state of its instruction. -/
theorem stepKeepsInvariant : Obligations.StepKeepsInvariant := by
  intro s t h hstep
  obtain ⟨i, -, hcan, rfl⟩ := (step_next s t).mp hstep
  exact completed_inv i s hcan h

/-- Settles O55: every list of the reset state is empty, and its `pc` and granule are checked as numbers. -/
theorem resetMeetsInvariant : Obligations.ResetMeetsInvariant where
  mem := ⟨.nil, nofun⟩
  res := .nil
  granule := by simp [State.reset]
  writtenSorted := .nil
  writtenHeld := by simp [State.reset]
  textUnstored := by simp [State.reset]
  pcAligned := by decide
  config := by decide

/-- Settles O56: the registers are a replicated zero, and every other field is written in `State.reset`. -/
theorem resetValues : Obligations.ResetValues := by
  refine ⟨fun r => ⟨?_, ?_⟩, rfl, rfl, rfl, rfl, rfl, rfl, fun n => rfl, rfl, rfl⟩
  · simp [readGpr, State.reset]
  · simp [readFpr, State.reset]

/-! ### Rules of every step -/

/-- Settles O29: a store that ran has no byte in the program text, and the configuration that declares the text is
unchanged. -/
theorem textNeverChanges : Obligations.TextNeverChanges := by
  intro s t hstep a ha
  obtain ⟨i, -, hcan, rfl⟩ := (step_next s t).mp hstep
  have houtside : ∀ x, InStore (storeAddress i s) x → a.toNat ≠ x.toNat := by
    intro x hx e
    have hxtext := hcan.store.notText x hx
    rw [← BitVec.eq_of_toNat_eq e, ha] at hxtext
    cases hxtext
  refine ⟨?_, by rwa [inText_completed]⟩
  rw [completed_mem]
  exact readByte_memWrite_other _ _ _ _ houtside

/-- Settles O34, by the fields of the completed state. -/
theorem controlStateNeverChanges : Obligations.ControlStateNeverChanges := by
  intro s t hstep
  obtain ⟨i, -, -, rfl⟩ := (step_next s t).mp hstep
  simp

/-- The other profiles return no flag (41_single_from_double.md R132, 93_implementation_defined.md G5). -/
theorem sfd_flags_of_not_architectural (c : Config) (rn : RoundingMode) (ni : Bool) (b : Dword)
    (h : c.profile ≠ .architectural) : (sfd c rn ni b).2 = FpFlags.none := by
  cases hp : c.profile with
  | architectural => exact absurd hp h
  | snapshot => simp [sfd, hp, sfdSnapshot]
  | book => simp [sfd, hp, sfdBook]

@[simp] theorem raise_none (r : Fpscr) : r.raise FpFlags.none = r := by
  simp [Fpscr.raise, FpFlags.union, FpFlags.none]

/-- Settles O35: the flags a conversion returns are OR-ed into FPSCR, and outside the architectural profile there are
none. -/
theorem flagsAreSticky : Obligations.FlagsAreSticky := by
  intro s t hstep
  obtain ⟨i, -, -, rfl⟩ := (step_next s t).mp hstep
  have hnone : s.cfg.profile ≠ .architectural → (completed i s).fpscr = s.fpscr := by
    intro hp
    rw [completed_fpscr, converted, sfd_flags_of_not_architectural _ _ _ _ hp, raise_none]
  refine ⟨?_, ?_, ?_, ?_, hnone⟩ <;>
    · intro h
      simp [h]

/-! ### Rules of every instruction -/

/-- Settles O32: the completed state holds the conversion of `f[FS]`, and a value placed in another register changes
no input of the instruction. -/
theorem onlySourceFprMatters : Obligations.OnlySourceFprMatters := by
  intro i s t hexec
  obtain ⟨hcan, rfl⟩ := (exec_next i s t).mp hexec
  refine ⟨completed_fpr i s, ?_, completed_fpscr i s, fun q v hq => ?_⟩
  · rw [completed_mem, memRead_memWrite]
    rfl
  · have hnext := (sameInputs_writeFpr i s q v hq).exec_next hcan
    rwa [completed_writeFpr i s q v hq] at hnext

/-- Settles O33, by the account of the completed state's general registers. -/
theorem gprAccessTable : Obligations.GprAccessTable := by
  intro i s t hexec
  obtain ⟨hcan, rfl⟩ := (exec_next i s t).mp hexec
  refine ⟨fun q hq => ?_, fun q hq => ?_, fun q v hq => ?_⟩
  · rw [readGpr_completed, if_neg hq]
  · rw [readGpr_completed, if_pos hq, updateVal]
  · rw [(sameInputs_writeGpr i s q v hq).exec_next hcan, completed_writeGpr i s q v hq]

/-! ### Addresses -/

/-- The effective address is the 32-bit sum of the low halves (20_memory.md R50). -/
theorem eaOf_eq_add (base offset : Dword) : eaOf base offset = base.setWidth 32 + offset.setWidth 32 :=
  BitVec.setWidth_add base offset (by omega)

@[simp] theorem setWidth_updateVal (ea : Addr) : (updateVal ea).setWidth 32 = ea := by
  simp [updateVal]

@[simp] theorem setWidth_dispVal (d : BitVec 16) : (dispVal d).setWidth 32 = d.signExtend 32 := by
  ext k hk
  have hk64 : k < 64 := by omega
  simp [dispVal, BitVec.getElem_signExtend, hk64]

theorem ra0Val_of_ne_zero (s : State) (ra : RegNum) (h : ra ≠ 0) : ra0Val s ra = raVal s ra := if_neg h

/-- The low half of a general register after an update form: the address in the base register, the old value in every
other. -/
theorem readGpr_completed_of_update (i : Instr) (s : State) (h : i.isUpdate = true) (q : RegNum) :
    (readGpr (completed i s) q).setWidth 32 =
      if q = i.ra then storeAddress i s else (readGpr s q).setWidth 32 := by
  rw [readGpr_completed, gprsWritten_eq, if_pos h]
  by_cases hq : q = i.ra <;> simp [hq]

/-- Settles O39: the next address is a sum of low halves, and the base register's is the first address. -/
theorem nextStoreSeesUpdate : Obligations.NextStoreSeesUpdate := by
  intro i s t hu hexec
  obtain ⟨-, rfl⟩ := (exec_next i s t).mp hexec
  have hgpr := readGpr_completed_of_update i s hu
  have hbase : (raVal (completed i s) i.ra).setWidth 32 = storeAddress i s := by
    rw [raVal, hgpr, if_pos rfl]
  refine ⟨fun fs d => ⟨?_, fun h0 => ?_⟩, fun fs rb => ⟨?_, fun h0 => ?_⟩⟩
  · rw [storeAddress, eaStfsu, eaOf_eq_add, hbase, setWidth_dispVal]
  · rw [storeAddress, eaStfs, eaOf_eq_add, ra0Val_of_ne_zero _ _ h0, hbase, setWidth_dispVal]
  · rw [storeAddress, eaStfsux, eaOf_eq_add, hbase, rbVal, hgpr]
  · rw [storeAddress, eaStfsx, eaOf_eq_add, ra0Val_of_ne_zero _ _ h0, hbase, rbVal, hgpr]

/-- Settles O8: the model's operand functions, written out. -/
theorem operandForms : Obligations.OperandForms :=
  ⟨readGpr_writeGpr_same, fun _ _ _ _ => ⟨rfl, rfl⟩, fun _ _ _ _ => ⟨rfl, rfl⟩⟩

/-! ### A step without a word -/

/-- A condition of the fetch ends the step (10_state.md R28, 20_memory.md R59, R68). -/
theorem step_of_fetchStop (s : State) (x : Stop) (h : fetchStop s = some x) : step s = x.toResult := by
  simp [step, fetchInstr, fetchVerdict, h]

theorem fetchStop_of_pc_misaligned (s : State) (h : s.pc.toNat % 4 ≠ 0) :
    fetchStop s = some (.refused .pcMisaligned) := by
  simp [fetchStop, misaligned, h]

theorem fetchStop_of_unmapped (s : State) (hpc : s.pc.toNat % 4 = 0)
    (h : ∃ a, InStore s.pc a ∧ mapped s a = false) : fetchStop s = some (.fault (.unmappedFetch s.pc)) := by
  have hany : (lanes s.pc).any (fun a => !mapped s a) = true := by simpa [mem_lanes] using h
  simp [fetchStop, misaligned, hpc, hany]

theorem fetchStop_of_stored (s : State) (hpc : s.pc.toNat % 4 = 0)
    (hmap : ∀ a, InStore s.pc a → mapped s a = true) (h : ∃ a, InStore s.pc a ∧ a.toNat ∈ s.written) :
    fetchStop s = some (.refused .fetchOfStoredBytes) := by
  have hnone : (lanes s.pc).any (fun a => !mapped s a) = false := by simpa [mem_lanes] using hmap
  have hany : (lanes s.pc).any (fun a => s.written.contains a.toNat) = true := by simpa [mem_lanes] using h
  rw [fetchStop, if_neg (by simp [misaligned, hpc]), if_neg (Bool.eq_false_iff.mp hnone), if_pos hany]

/-- A word that may be fetched but has a byte without a value ends the step (log 7). -/
theorem step_of_unwritten (s : State) (hstop : fetchStop s = none) (h : memRead s.mem s.pc 4 = none) :
    step s = .fault (.unwrittenFetch s.pc) := by
  have hbytes : readBytes s.mem s.pc 4 = none := by simpa [memRead] using h
  simp [step, fetchInstr, fetchVerdict, hstop, hbytes, Stop.toResult]

/-- Settles O21, one lemma for each clause. -/
theorem stepWithoutWord : Obligations.StepWithoutWord := by
  refine ⟨fun s hpc => ?_, fun s hpc h => ?_, fun s hpc hmap h => ?_, fun s hpc h hread => ?_⟩
  · exact step_of_fetchStop s _ (fetchStop_of_pc_misaligned s hpc)
  · exact step_of_fetchStop s _ (fetchStop_of_unmapped s hpc h)
  · exact step_of_fetchStop s _ (fetchStop_of_stored s hpc hmap h)
  · have hstop : fetchStop s = none :=
      (fetchStop_none s).mpr ⟨hpc, fun a ha => (h a ha).1, fun a ha => (h a ha).2⟩
    exact step_of_unwritten s hstop hread

end Sys2Proof.Machine
end

section
/-! The statements about memory and storage access (20_memory.md). First what each part of a written list of bytes
reads back as; then the data access of an instruction, the order of two stores, the reservations a store kills, and
the fetch of a placed word. -/

namespace Sys2Proof.Machine

/-! ### A written list of bytes read back -/

/-- Byte `k` of a written list is at `a + k`: no later byte comes back to that address, since the list is no longer
than the address space (20_memory.md R52). -/
theorem readByte_writeBytes_at (bs : List Byte) (m : Memory) (a : Addr) (k : Nat) (hlen : bs.length ≤ 2 ^ 32)
    (hk : k < bs.length) : readByte (writeBytes m a bs) (a + BitVec.ofNat 32 k).toNat = bs[k]? := by
  induction bs generalizing m a k with
  | nil => cases hk
  | cons b bs ih =>
    rw [List.length_cons] at hlen hk
    cases k with
    | zero =>
      have hlater : ∀ i, i < bs.length → a.toNat ≠ (a + 1 + BitVec.ofNat 32 i).toNat := by
        intro i hi
        rw [addr_add_add]
        simpa using addr_add_ne a 0 (i + 1) (by omega) (by omega) (by omega)
      have hat : a + BitVec.ofNat 32 0 = a := by simp
      rw [hat, writeBytes, readByte_writeBytes_other _ _ _ _ hlater, readByte_writeByte_same]
      rfl
    | succ k =>
      rw [writeBytes, ← addr_add_add, ih _ _ _ (by omega) (by omega), List.getElem?_cons_succ]

/-- Any part of a written list reads back as it was written. -/
theorem readBytes_writeBytes (bs : List Byte) (m : Memory) (a : Addr) (k n : Nat) (hlen : bs.length ≤ 2 ^ 32)
    (hn : k + n ≤ bs.length) :
    readBytes (writeBytes m a bs) (a + BitVec.ofNat 32 k) n = some ((bs.drop k).take n) := by
  induction n generalizing k with
  | zero => simp [readBytes]
  | succ n ih =>
    have hk : k < bs.length := by omega
    have hnext : a + BitVec.ofNat 32 k + 1 = a + BitVec.ofNat 32 (k + 1) := by
      rw [BitVec.ofNat_add, BitVec.add_assoc]
      rfl
    rw [readBytes, readByte_writeBytes_at bs m a k hlen hk, hnext, ih (k + 1) (by omega),
      List.getElem?_eq_getElem hk, List.drop_eq_getElem_cons hk, List.take_succ_cons]
    rfl

/-- A read inside a stored word sees that part of its bytes (20_memory.md R53, R56). -/
theorem memRead_memWrite_part (m : Memory) (a : Addr) (w : Word) (k n : Nat) (hn : k + n ≤ 4) :
    memRead (memWrite m a w) (a + BitVec.ofNat 32 k) n = some (numberOfBytes (((bytesOfWord w).drop k).take n)) := by
  rw [memRead, memWrite, readBytes_writeBytes _ _ _ _ _ (by simp [bytesOfWord]) (by simpa [bytesOfWord] using hn)]
  rfl

/-- Settles O25: the general list by `readByte_writeBytes_at`, a word's bytes by the law of the four bytes. -/
theorem memWriteIsBigEndian : Obligations.MemWriteIsBigEndian :=
  ⟨fun m a bs hlen => ⟨fun k hk => readByte_writeBytes_at bs m a k hlen hk, readByte_writeBytes_other bs m a⟩,
    fun m a w => ⟨rfl, readByte_memWrite m a w⟩⟩

theorem numberOfBytes_upperHalf (w : Word) : numberOfBytes ((bytesOfWord w).take 2) = w.toNat / 2 ^ 16 := by
  simp only [bytesOfWord, List.take, numberOfBytes, List.foldl, BitVec.extractLsb'_toNat, Nat.shiftRight_eq_div_pow]
  have := w.isLt
  omega

theorem numberOfBytes_lowerHalf (w : Word) : numberOfBytes ((bytesOfWord w).drop 2) = w.toNat % 2 ^ 16 := by
  simp only [bytesOfWord, List.drop, numberOfBytes, List.foldl, BitVec.extractLsb'_toNat, Nat.shiftRight_eq_div_pow]
  omega

theorem numberOfBytes_firstByte (w : Word) : numberOfBytes ((bytesOfWord w).take 1) = w.toNat / 2 ^ 24 := by
  simp only [bytesOfWord, List.take, numberOfBytes, List.foldl, BitVec.extractLsb'_toNat, Nat.shiftRight_eq_div_pow]
  have := w.isLt
  omega

/-- Settles O26: each read is a part of the stored word's bytes, and each part is a number of the word. -/
theorem memReadAfterMemWrite : Obligations.MemReadAfterMemWrite := by
  intro m a w
  refine ⟨memRead_memWrite m a w, ?_, ?_, ?_⟩
  · rw [← numberOfBytes_upperHalf]
    simpa using memRead_memWrite_part m a w 0 2 (by omega)
  · rw [← numberOfBytes_lowerHalf]
    exact memRead_memWrite_part m a w 2 2 (by omega)
  · rw [← numberOfBytes_firstByte]
    simpa using memRead_memWrite_part m a w 0 1 (by omega)

/-! ### The data access of an instruction -/

/-- The four bytes of a store do not depend on what memory held. -/
theorem readByte_memWrite_congr (m m' : Memory) (a x : Addr) (w : Word) (hx : InStore a x) :
    readByte (memWrite m a w) x.toNat = readByte (memWrite m' a w) x.toNat := by
  obtain ⟨k, hk, rfl⟩ := hx
  have hstored : ∀ m, readByte (memWrite m a w) (a + BitVec.ofNat 32 k).toNat = (bytesOfWord w)[k]? :=
    fun m => readByte_writeBytes_at _ m a k (by simp [bytesOfWord]) (by simpa [bytesOfWord] using hk)
  rw [hstored, hstored]

theorem storeAddress_withMem (i : Instr) (s : State) (m : Memory) :
    storeAddress i { s with mem := m } = storeAddress i s := by cases i <;> rfl

/-- No test and no operand of an instruction looks at memory. -/
theorem sameInputs_withMem (i : Instr) (s : State) (m : Memory) : SameInputs i s { s with mem := m } :=
  ⟨rfl, rfl, rfl, rfl, storeAddress_withMem i s m, rfl⟩

theorem completed_withMem (i : Instr) (s : State) (m : Memory) :
    { completed i { s with mem := m } with mem := (completed i s).mem } = completed i s := by cases i <;> rfl

/-- Outside its four bytes a completed instruction leaves memory as it was. -/
theorem readByte_completed_other (i : Instr) (s : State) (n : Nat)
    (h : ∀ x, InStore (storeAddress i s) x → n ≠ x.toNat) :
    readByte (completed i s).mem n = readByte s.mem n :=
  (storeDone_completed i s).others n h

/-- Settles O27: memory is no input of the instruction, and its four bytes are those of the converted word. -/
theorem oneFourByteAccess : Obligations.OneFourByteAccess := by
  intro i s t hexec
  obtain ⟨hcan, rfl⟩ := (exec_next i s t).mp hexec
  refine ⟨readByte_completed_other i s, fun m => ?_⟩
  have hsame := sameInputs_withMem i s m
  refine ⟨_, hsame.exec_next hcan, completed_withMem i s m, fun a ha => ?_⟩
  rw [completed_mem, completed_mem, hsame.address, hsame.converted]
  exact readByte_memWrite_congr _ _ _ _ _ ha

/-- Settles O17: of the conditions of a store, alignment asks nothing of ordinary storage. -/
theorem misalignedStoreIsPerformed : Obligations.MisalignedStoreIsPerformed := by
  intro i s hready hform _ hordinary htop hbytes htrap
  have hstore : StoreCanRun s (storeAddress i s) i.fs :=
    { top := htop
      alignment := .inr (.inl hordinary)
      isMapped := fun a ha => (hbytes a ha).1
      notText := fun a ha => (hbytes a ha).2
      noTrap := htrap }
  exact ⟨completed i s, (exec_next i s _).mpr ⟨⟨hready, hform, hstore⟩, rfl⟩, storeDone_completed i s⟩

/-! ### Two stores in sequence -/

/-- An instruction changes no input of a later conversion: the operands, the configuration and the FPSCR controls
stay. -/
theorem converted_completed (i : Instr) (s : State) (fs : RegNum) :
    converted (completed i s) fs = converted s fs := by
  simp [converted, readFpr]

/-- Settles O28: the second store's own bytes, and the frame of one store applied once or twice. -/
theorem laterStoreWins : Obligations.LaterStoreWins := by
  intro i j s t u hi hj
  obtain ⟨-, rfl⟩ := (exec_next i s t).mp hi
  obtain ⟨-, rfl⟩ := (exec_next j _ u).mp hj
  refine ⟨?_, fun a _ hnot => ?_, fun n hn => ?_⟩
  · rw [completed_mem, memRead_memWrite, converted_completed]
    rfl
  · refine readByte_completed_other j _ _ fun x hx e => hnot ?_
    rwa [BitVec.eq_of_toNat_eq e]
  · rw [readByte_completed_other j _ n fun x hx => hn x (.inr hx),
      readByte_completed_other i s n fun x hx => hn x (.inl hx)]

/-! ### Reservations -/

/-- The reservations a completed instruction leaves (20_memory.md R66), a granule's address as a multiple of its
size. -/
theorem mem_res_completed (i : Instr) (s : State) (r : Reservation) :
    r ∈ (completed i s).res ↔ r ∈ s.res ∧ ∀ a, InStore (storeAddress i s) a →
      a.toNat / s.cfg.granuleSize * s.cfg.granuleSize ≠ r.granule := by
  rw [completed_res, mem_resKill]
  simp only [Nat.div_mul_self_eq_mod_sub_self, not_exists, not_and, ne_eq]

/-- Settles O31, by the account of the reservations that are left. -/
theorem storeKillsReservations : Obligations.StoreKillsReservations := by
  intro i s t hexec
  obtain ⟨-, rfl⟩ := (exec_next i s t).mp hexec
  exact ⟨fun r hr => (mem_res_completed i s r).mp hr, fun r hr hout => (mem_res_completed i s r).mpr ⟨hr, hout⟩⟩

/-- Settles O30, by evaluation of each row of the vector. -/
theorem reservationKillExamples : Obligations.ReservationKillExamples := by
  refine ⟨?_, ?_, ?_, ?_⟩ <;> decide

/-! ### The effective address -/

/-- Settles O9: truncation to the low half keeps the sum modulo `2^32`. -/
theorem effectiveAddressIsLowHalf : Obligations.EffectiveAddressIsLowHalf := by
  intro base offset
  refine ⟨?_, eaOf_eq_add base offset⟩
  rw [eaOf, BitVec.toNat_setWidth, BitVec.toNat_add]

/-! ### The fetch of a placed word -/

/-- A placed word's addresses are off the record of stored bytes, so nothing stops its fetch (log 8). -/
theorem fetchStop_withFetchWord (s : State) (nbits n : Nat) (hpc : s.pc.toNat % 4 = 0)
    (hmap : ∀ a, InStore s.pc a → mapped s a = true) : fetchStop (s.withFetchWord nbits n) = none := by
  refine (fetchStop_none _).mpr ⟨hpc, hmap, fun a ha hmem => ?_⟩
  have hlane : (lanes s.pc).any (fun x => x.toNat == a.toNat) = true :=
    (lanes_any _ _).mpr ⟨a, ha, beq_self_eq_true _⟩
  simp [hlane] at hmem

/-- The verdict of a fetch that nothing stops, at the bytes of a word. -/
theorem fetchVerdict_of_word (s : State) (w : Word) (hstop : fetchStop s = none)
    (hread : readBytes s.mem s.pc 4 = some (bytesOfWord w)) : fetchVerdict s = .ok (decode w) := by
  have hdecode : decodeBytes (bytesOfWord w) = .ok (decode w, []) := by
    simpa using decodeBytes_bytesOfWord w []
  simp only [fetchVerdict, hstop, hread, hdecode]

/-- Settles O24: the fetch is not stopped, and it reads the bytes that were placed. -/
theorem placedWordIsFetched : Obligations.PlacedWordIsFetched := by
  intro s nbits n hpc hmap
  exact fetchVerdict_of_word _ (tableWord nbits n) (fetchStop_withFetchWord s nbits n hpc hmap)
    (readBytes_memWrite s.mem s.pc _)

end Sys2Proof.Machine
end

section
/-! The statements about the encoding (30_encoding.md). First the masks of R88 and R92 as tests of
fields and the verdict on each form; then the fact the round trips and the opcode table's rows rest on: the table reads
an instruction from a word exactly when the word is the instruction's encoding. Last the fields as numbers, and the
displacement. -/

namespace Sys2Proof

/-! ### Masks test fields -/

theorem and_dMask (w : Word) : w &&& 0xFC000000 = fieldOPCD w ++ 0#5 ++ 0#5 ++ 0#16 := by
  have hand (op : BitVec 6) (a b : BitVec 5) (d : BitVec 16) :
      (op ++ a ++ b ++ d) &&& (BitVec.allOnes 6 ++ 0#5 ++ 0#5 ++ 0#16) = op ++ 0#5 ++ 0#5 ++ 0#16 := by
    simp only [BitVec.and_append, BitVec.and_allOnes, BitVec.and_zero]
  exact (congrArg (· &&& _) (dWord_of_fields w).symm).trans (hand _ _ _ _)

/-- The mask of the D-form rows tests the primary opcode. -/
theorem and_dMask_eq_iff (w : Word) (op : BitVec 6) :
    w &&& 0xFC000000 = op ++ 0#5 ++ 0#5 ++ 0#16 ↔ fieldOPCD w = op := by
  rw [and_dMask, BitVec.append_left_inj, BitVec.append_left_inj, BitVec.append_left_inj]

/-- The masks of the X form: both opcodes, and bit 31 or not by the mask's own last bit `m`. -/
def xMask (m : BitVec 1) : Word := BitVec.allOnes 6 ++ 0#5 ++ 0#5 ++ 0#5 ++ BitVec.allOnes 10 ++ m

theorem and_xMask (w : Word) (m : BitVec 1) :
    w &&& xMask m = fieldOPCD w ++ 0#5 ++ 0#5 ++ 0#5 ++ fieldXO w ++ (fieldRc w &&& m) := by
  have hand (op : BitVec 6) (a b c : BitVec 5) (xo : BitVec 10) (rc : BitVec 1) :
      (op ++ a ++ b ++ c ++ xo ++ rc) &&& (BitVec.allOnes 6 ++ 0#5 ++ 0#5 ++ 0#5 ++ BitVec.allOnes 10 ++ m) =
        op ++ 0#5 ++ 0#5 ++ 0#5 ++ xo ++ (rc &&& m) := by
    simp only [BitVec.and_append, BitVec.and_allOnes, BitVec.and_zero]
  exact (congrArg (· &&& _) (xWord_of_fields w).symm).trans (hand _ _ _ _ _ _)

/-- Words of opcodes and bit 31 alone are equal when these are. -/
theorem xWord_eq_xWord_iff (op op' : BitVec 6) (xo xo' : BitVec 10) (rc rc' : BitVec 1) :
    (op ++ 0#5 ++ 0#5 ++ 0#5 ++ xo ++ rc : Word) = op' ++ 0#5 ++ 0#5 ++ 0#5 ++ xo' ++ rc' ↔
      op = op' ∧ xo = xo' ∧ rc = rc' := by
  constructor
  · intro h
    obtain ⟨hop, -, -, -, hxo, hrc⟩ := fields_of_xWord op 0 0 0 xo rc
    obtain ⟨hop', -, -, -, hxo', hrc'⟩ := fields_of_xWord op' 0 0 0 xo' rc'
    exact ⟨hop.symm.trans ((congrArg (BitVec.extractLsb' 26 6) h).trans hop'),
      hxo.symm.trans ((congrArg (BitVec.extractLsb' 1 10) h).trans hxo'),
      hrc.symm.trans ((congrArg (BitVec.extractLsb' 0 1) h).trans hrc')⟩
  · rintro ⟨rfl, rfl, rfl⟩
    rfl

theorem and_xMask_eq_iff (w : Word) (m : BitVec 1) (op : BitVec 6) (xo : BitVec 10) (rc : BitVec 1) :
    w &&& xMask m = op ++ 0#5 ++ 0#5 ++ 0#5 ++ xo ++ rc ↔
      fieldOPCD w = op ∧ fieldXO w = xo ∧ fieldRc w &&& m = rc := by
  rw [and_xMask, xWord_eq_xWord_iff]

theorem dMask_stfs_iff (w : Word) : w &&& 0xFC000000 = 0xD0000000 ↔ fieldOPCD w = opcdStfs :=
  and_dMask_eq_iff w opcdStfs

theorem dMask_stfsu_iff (w : Word) : w &&& 0xFC000000 = 0xD4000000 ↔ fieldOPCD w = opcdStfsu :=
  and_dMask_eq_iff w opcdStfsu

/-- The masks of R88 leave bit 31 out. -/
theorem decodeMask_stfsx_iff (w : Word) :
    w &&& 0xFC0007FE = 0x7C00052E ↔ fieldOPCD w = opcdX ∧ fieldXO w = xoStfsx :=
  (and_xMask_eq_iff w 0 opcdX xoStfsx 0).trans (by simp)

theorem decodeMask_stfsux_iff (w : Word) :
    w &&& 0xFC0007FE = 0x7C00056E ↔ fieldOPCD w = opcdX ∧ fieldXO w = xoStfsux :=
  (and_xMask_eq_iff w 0 opcdX xoStfsux 0).trans (by simp)

/-- The masks of R92 test bit 31 too. -/
theorem rowMask_stfsx_iff (w : Word) :
    w &&& 0xFC0007FF = 0x7C00052E ↔ fieldOPCD w = opcdX ∧ fieldXO w = xoStfsx ∧ fieldRc w = 0 :=
  (and_xMask_eq_iff w (BitVec.allOnes 1) opcdX xoStfsx 0).trans (by rw [BitVec.and_allOnes])

theorem rowMask_stfsux_iff (w : Word) :
    w &&& 0xFC0007FF = 0x7C00056E ↔ fieldOPCD w = opcdX ∧ fieldXO w = xoStfsux ∧ fieldRc w = 0 :=
  (and_xMask_eq_iff w (BitVec.allOnes 1) opcdX xoStfsux 0).trans (by rw [BitVec.and_allOnes])

/-! ### The verdict of a form -/

@[simp] theorem verdictOfForm_stfs (fs ra : RegNum) (d : BitVec 16) :
    verdictOfForm (.stfs fs ra d) = .instr (.stfs fs ra d) := rfl

@[simp] theorem verdictOfForm_stfsx (fs ra rb : RegNum) :
    verdictOfForm (.stfsx fs ra rb) = .instr (.stfsx fs ra rb) := rfl

@[simp] theorem verdictOfForm_stfsu (fs ra : RegNum) (d : BitVec 16) :
    verdictOfForm (.stfsu fs ra d) = if ra = 0 then .invalidForm (.stfsu fs ra d) else .instr (.stfsu fs ra d) := by
  simp [verdictOfForm, Instr.wellFormed]

@[simp] theorem verdictOfForm_stfsux (fs ra rb : RegNum) :
    verdictOfForm (.stfsux fs ra rb) =
      if ra = 0 then .invalidForm (.stfsux fs ra rb) else .instr (.stfsux fs ra rb) := by
  simp [verdictOfForm, Instr.wellFormed]

theorem verdictOfForm_eq_instr_iff (i j : Instr) : verdictOfForm i = .instr j ↔ i.wellFormed = true ∧ i = j := by
  cases h : i.wellFormed <;> simp [verdictOfForm, h]

theorem instr?_verdictOfForm (i : Instr) : (verdictOfForm i).instr? = some i := by
  cases h : i.wellFormed <;> simp [verdictOfForm, h, Verdict.instr?]

/-! ### Decoding an encoding -/

theorem decode_encode (i : Instr) : decode (encode i) = verdictOfForm i := by
  cases i with
  | stfs fs ra d =>
    obtain ⟨hop, hfs, hra, hd⟩ := fields_encode_stfs fs ra d
    simp only [decode, hop, hfs, hra, hd, if_true]
  | stfsu fs ra d =>
    obtain ⟨hop, hfs, hra, hd⟩ := fields_encode_stfsu fs ra d
    simp only [decode, hop, hfs, hra, hd]
    rfl
  | stfsx fs ra rb =>
    obtain ⟨hop, hfs, hra, hrb, hxo, hrc⟩ := fields_encode_stfsx fs ra rb
    simp only [decode, hop, hfs, hra, hrb, hxo, hrc]
    rfl
  | stfsux fs ra rb =>
    obtain ⟨hop, hfs, hra, hrb, hxo, hrc⟩ := fields_encode_stfsux fs ra rb
    simp only [decode, hop, hfs, hra, hrb, hxo, hrc]
    rfl

/-! ### A word is the encoding of its fields -/

theorem encode_stfs_fields {w : Word} (hop : fieldOPCD w = opcdStfs) :
    encode (.stfs (fieldFS w) (fieldRA w) (fieldD w)) = w := by
  simp only [encode, ← hop, fieldOPCD, fieldFS, fieldRA, fieldD, fieldOfReg_regOfField, dWord_of_fields]

theorem encode_stfsu_fields {w : Word} (hop : fieldOPCD w = opcdStfsu) :
    encode (.stfsu (fieldFS w) (fieldRA w) (fieldD w)) = w := by
  simp only [encode, ← hop, fieldOPCD, fieldFS, fieldRA, fieldD, fieldOfReg_regOfField, dWord_of_fields]

theorem encode_stfsx_fields {w : Word} (hop : fieldOPCD w = opcdX) (hxo : fieldXO w = xoStfsx)
    (hrc : fieldRc w = 0#1) : encode (.stfsx (fieldFS w) (fieldRA w) (fieldRB w)) = w := by
  simp only [encode, ← hop, ← hxo, ← hrc, fieldOPCD, fieldFS, fieldRA, fieldRB, fieldXO, fieldRc,
    fieldOfReg_regOfField, xWord_of_fields]

theorem encode_stfsux_fields {w : Word} (hop : fieldOPCD w = opcdX) (hxo : fieldXO w = xoStfsux)
    (hrc : fieldRc w = 0#1) : encode (.stfsux (fieldFS w) (fieldRA w) (fieldRB w)) = w := by
  simp only [encode, ← hop, ← hxo, ← hrc, fieldOPCD, fieldFS, fieldRA, fieldRB, fieldXO, fieldRc,
    fieldOfReg_regOfField, xWord_of_fields]

/-- What `decode` can answer: the form's verdict on an instruction whose encoding the word is, or no instruction. -/
theorem decode_cases (w : Word) :
    (∃ i, encode i = w ∧ decode w = verdictOfForm i) ∨ (decode w).instr? = none := by
  fun_cases decode w with
  | case1 hop => exact .inl ⟨_, encode_stfs_fields hop, rfl⟩
  | case2 _ hop => exact .inl ⟨_, encode_stfsu_fields hop, rfl⟩
  | case3 => exact .inr rfl
  | case4 _ _ hx hrc =>
    obtain ⟨hop, hxo⟩ := hx
    exact .inl ⟨_, encode_stfsx_fields hop hxo ((BitVec.eq_zero_or_eq_one _).resolve_right hrc), rfl⟩
  | case5 => exact .inr rfl
  | case6 _ _ _ hx hrc =>
    obtain ⟨hop, hxo⟩ := hx
    exact .inl ⟨_, encode_stfsux_fields hop hxo ((BitVec.eq_zero_or_eq_one _).resolve_right hrc), rfl⟩
  | case7 => exact .inr rfl

/-- The opcode table reads an instruction from exactly one word, its encoding (log 16: a form with `RA` = 0 too). -/
theorem instr?_decode_eq_some_iff (w : Word) (i : Instr) : (decode w).instr? = some i ↔ encode i = w := by
  constructor
  · intro h
    obtain ⟨j, hj, hdecode⟩ | hnone := decode_cases w
    · rw [hdecode, instr?_verdictOfForm, Option.some_inj] at h
      exact h ▸ hj
    · simp [hnone] at h
  · rintro rfl
    rw [decode_encode, instr?_verdictOfForm]

/-- Settles O5: the decoder's verdict on an encoding is the form's, and bytes in memory order are the word's. -/
theorem encodeThenDecode : Obligations.EncodeThenDecode := by
  intro i rest hwf
  have hdecode : decode (encode i) = .instr i :=
    (decode_encode i).trans ((verdictOfForm_eq_instr_iff i i).mpr ⟨hwf, rfl⟩)
  exact ⟨hdecode, (decodeBytes_bytesOfWord (encode i) rest).trans (by rw [hdecode])⟩

/-- Settles O6: the word is an encoding, so the decoder's verdict on it is the form's. -/
theorem decodeThenEncode : Obligations.DecodeThenEncode := by
  intro w i hdecode
  have hword : encode i = w := (instr?_decode_eq_some_iff w i).mp (by rw [hdecode, Verdict.instr?])
  rw [← hword, decode_encode] at hdecode
  exact ⟨((verdictOfForm_eq_instr_iff i i).mp hdecode).1, hword⟩

/-- Settles O3: each mask tests the fields the decoder tests, in the same order. -/
theorem decodeByMasks : Obligations.DecodeByMasks := by
  intro w
  simp only [dMask_stfs_iff, dMask_stfsu_iff, decodeMask_stfsx_iff, decodeMask_stfsux_iff, decode,
    verdictOfForm_stfs, verdictOfForm_stfsu, verdictOfForm_stfsx, verdictOfForm_stfsux]

/-! ### The rows of the opcode table -/

theorem row_stfs_iff (w : Word) :
    w &&& 0xFC000000 = 0xD0000000 ↔ ∃ fs ra d, (decode w).instr? = some (.stfs fs ra d) := by
  simp only [dMask_stfs_iff, instr?_decode_eq_some_iff]
  constructor
  · exact fun hop => ⟨_, _, _, encode_stfs_fields hop⟩
  · rintro ⟨fs, ra, d, rfl⟩
    exact (fields_encode_stfs fs ra d).1

theorem row_stfsu_iff (w : Word) :
    w &&& 0xFC000000 = 0xD4000000 ↔ ∃ fs ra d, (decode w).instr? = some (.stfsu fs ra d) := by
  simp only [dMask_stfsu_iff, instr?_decode_eq_some_iff]
  constructor
  · exact fun hop => ⟨_, _, _, encode_stfsu_fields hop⟩
  · rintro ⟨fs, ra, d, rfl⟩
    exact (fields_encode_stfsu fs ra d).1

theorem row_stfsx_iff (w : Word) :
    w &&& 0xFC0007FF = 0x7C00052E ↔ ∃ fs ra rb, (decode w).instr? = some (.stfsx fs ra rb) := by
  simp only [rowMask_stfsx_iff, instr?_decode_eq_some_iff]
  constructor
  · exact fun ⟨hop, hxo, hrc⟩ => ⟨_, _, _, encode_stfsx_fields hop hxo hrc⟩
  · rintro ⟨fs, ra, rb, rfl⟩
    obtain ⟨hop, -, -, -, hxo, hrc⟩ := fields_encode_stfsx fs ra rb
    exact ⟨hop, hxo, hrc⟩

theorem row_stfsux_iff (w : Word) :
    w &&& 0xFC0007FF = 0x7C00056E ↔ ∃ fs ra rb, (decode w).instr? = some (.stfsux fs ra rb) := by
  simp only [rowMask_stfsux_iff, instr?_decode_eq_some_iff]
  constructor
  · exact fun ⟨hop, hxo, hrc⟩ => ⟨_, _, _, encode_stfsux_fields hop hxo hrc⟩
  · rintro ⟨fs, ra, rb, rfl⟩
    obtain ⟨hop, -, -, -, hxo, hrc⟩ := fields_encode_stfsux fs ra rb
    exact ⟨hop, hxo, hrc⟩

/-- A row that accepts a word is the row of the instruction read from the word. -/
theorem exists_instr?_of_accepts {p : OpcodeRow} {w : Word} (hp : p ∈ opcodeTable) (h : p.accepts w = true) :
    ∃ i : Instr, i.row = p ∧ (decode w).instr? = some i := by
  simp only [opcodeTable, List.mem_cons, List.not_mem_nil, or_false] at hp
  have hmask : w &&& p.mask = p.pattern := eq_of_beq h
  obtain rfl | rfl | rfl | rfl := hp
  · obtain ⟨_, _, _, hi⟩ := (row_stfs_iff w).mp hmask
    exact ⟨_, rfl, hi⟩
  · obtain ⟨_, _, _, hi⟩ := (row_stfsu_iff w).mp hmask
    exact ⟨_, rfl, hi⟩
  · obtain ⟨_, _, _, hi⟩ := (row_stfsx_iff w).mp hmask
    exact ⟨_, rfl, hi⟩
  · obtain ⟨_, _, _, hi⟩ := (row_stfsux_iff w).mp hmask
    exact ⟨_, rfl, hi⟩

/-- Settles O4: two rows that accept one word are the row of the one instruction read from it. -/
theorem opcodeRowsAreExact : Obligations.OpcodeRowsAreExact := by
  refine ⟨fun w => ⟨row_stfs_iff w, row_stfsu_iff w, row_stfsx_iff w, row_stfsux_iff w⟩,
    fun w p hp q hq hpw hqw => ?_⟩
  obtain ⟨i, rfl, hi⟩ := exists_instr?_of_accepts hp hpw
  obtain ⟨j, rfl, hj⟩ := exists_instr?_of_accepts hq hqw
  rw [Option.some_inj.mp (hi.symm.trans hj)]

/-! ### Words and fields -/

/-- Settles O1, by evaluation of each row of the vector. -/
theorem specWordsDecode : Obligations.SpecWordsDecode := by
  refine ⟨?_, ?_, ?_, ?_, ?_, ?_, ?_, ?_, ?_, ?_, ?_⟩ <;> decide

/-- Settles O2: a field is the remainder of a quotient; `OPCD` needs no remainder, and `D` and `Rc` no quotient. -/
theorem fieldsAreTheirBits : Obligations.FieldsAreTheirBits := by
  intro w
  have hw := w.isLt
  simp only [fieldOPCD, fieldFS, fieldRA, fieldRB, fieldD, fieldXO, fieldRc, regOfField, BitVec.extractLsb'_toNat,
    Nat.shiftRight_eq_div_pow, true_and]
  omega

end Sys2Proof

namespace Sys2Proof.Machine

/-! ### The displacement -/

theorem getLsbD_dispVal (d : BitVec 16) (k : Nat) :
    (dispVal d).getLsbD k = (decide (k < 64) && if k < 16 then d.getLsbD k else d.getLsbD 15) := by
  rw [dispVal, BitVec.getLsbD_signExtend, BitVec.msb_eq_getLsbD_last]

theorem setWidth_16_dispVal (d : BitVec 16) : (dispVal d).setWidth 16 = d := by
  apply BitVec.eq_of_getLsbD_eq
  intro k hk
  have hk64 : k < 64 := by omega
  simp only [BitVec.getLsbD_setWidth, getLsbD_dispVal, hk, hk64, decide_true, Bool.true_and, if_true]

/-- Settles O7: sign extension keeps the value, and its bits are the field's and copies of the field's last. -/
theorem displacementIsSigned : Obligations.DisplacementIsSigned := by
  refine ⟨fun d => ⟨BitVec.toInt_signExtend_of_le (by omega), BitVec.le_toInt d, Int.le_of_lt_add_one d.toInt_lt,
    setWidth_16_dispVal d, fun k hlo hhi => ?_⟩, by decide⟩
  simp only [getLsbD_dispVal, hhi, Nat.not_lt.mpr hlo, decide_true, Bool.true_and, if_false]

end Sys2Proof.Machine
end

section
/-! The statements about the four instructions and the step (40_fp_store_single.md). First what each instruction does when
it can run, and where it leaves `pc`; then the fetch of a word and the step on each verdict; last runs of many steps. -/

namespace Sys2Proof.Machine

/-! ### The four instructions complete -/

theorem exec_of_canRun {i : Instr} {s : State} (h : CanRun i s) : exec i s = .next (completed i s) :=
  (exec_next i s _).mpr ⟨h, rfl⟩

/-- The forms without update (40_fp_store_single.md R102, R105). -/
theorem exec_plain_completes (i : Instr) (s : State) (hu : i.isUpdate = false) (h : CanRun i s) :
    ∃ t, exec i s = .next t ∧ StoreDone s t (storeAddress i s) i.fs ∧ t.gpr = s.gpr :=
  ⟨completed i s, exec_of_canRun h, storeDone_completed i s, by simp [completed_gpr, hu]⟩

/-- The update forms (40_fp_store_single.md R104, R106). -/
theorem exec_update_completes (i : Instr) (s : State) (hu : i.isUpdate = true) (h : CanRun i s) :
    ∃ t, exec i s = .next t ∧ StoreDone s t (storeAddress i s) i.fs ∧
      readGpr t i.ra = (storeAddress i s).setWidth 64 ∧ ∀ q, q ≠ i.ra → readGpr t q = readGpr s q := by
  refine ⟨completed i s, exec_of_canRun h, storeDone_completed i s, ?_, fun q hq => ?_⟩
  · simp [readGpr_completed, gprsWritten_eq, hu, updateVal]
  · simp [readGpr_completed, gprsWritten_eq, hu, hq]

/-- Settles O10: a form without update, at the address R102 gives. -/
theorem stfsCompletes : Obligations.StfsCompletes :=
  fun fs ra d s h => exec_plain_completes (.stfs fs ra d) s rfl h

/-- Settles O11: an update form, at the address R104 gives. -/
theorem stfsuCompletes : Obligations.StfsuCompletes :=
  fun fs ra d s h => exec_update_completes (.stfsu fs ra d) s rfl h

/-- Settles O12: a form without update, at the address R105 gives. -/
theorem stfsxCompletes : Obligations.StfsxCompletes :=
  fun fs ra rb s h => exec_plain_completes (.stfsx fs ra rb) s rfl h

/-- Settles O13: an update form, at the address R106 gives, which is read before any write. -/
theorem stfsuxCompletes : Obligations.StfsuxCompletes :=
  fun fs ra rb s h => exec_update_completes (.stfsux fs ra rb) s rfl h

/-- The address of `stfsux` with one register as base and index. -/
theorem storeAddress_stfsux_self (fs r : RegNum) (s : State) :
    (storeAddress (.stfsux fs r r) s).toNat = 2 * (readGpr s r).toNat % 2 ^ 32 := by
  have hsum := (effectiveAddressIsLowHalf (readGpr s r) (readGpr s r)).1
  have haddr : storeAddress (.stfsux fs r r) s = eaOf (readGpr s r) (readGpr s r) := rfl
  rw [haddr, hsum]
  omega

/-- Settles O38: the register receives the address, zero-extended. -/
theorem overlapReadsBeforeWrite : Obligations.OverlapReadsBeforeWrite := by
  intro fs r s t hexec
  obtain ⟨-, rfl⟩ := (exec_next _ s t).mp hexec
  have haddr := storeAddress_stfsux_self fs r s
  have hgpr : readGpr (completed (.stfsux fs r r) s) r = updateVal (storeAddress (.stfsux fs r r) s) := by
    rw [readGpr_completed, if_pos (by simp [gprsWritten])]
  refine ⟨haddr, ?_⟩
  rw [hgpr, updateVal, BitVec.toNat_setWidth_of_le (by omega), haddr]

/-! ### Where an instruction leaves `pc` -/

/-- The next word's address does not wrap, since an instruction at the last word is refused (10_state.md R28). -/
theorem toNat_pc_completed {i : Instr} {s : State} (h : CanRun i s) :
    (completed i s).pc.toNat = s.pc.toNat + 4 := by
  obtain ⟨-, hpc⟩ := h.ready
  have hfour : (4 : Addr).toNat = 4 := rfl
  rw [completed_pc, BitVec.toNat_add, hfour]
  omega

/-- Settles O36, by the `pc` of the completed state. -/
theorem everyInstructionFallsThrough : Obligations.EveryInstructionFallsThrough := by
  intro i s t hexec
  obtain ⟨hcan, rfl⟩ := (exec_next i s t).mp hexec
  exact ⟨completed_pc i s, toNat_pc_completed hcan⟩

/-! ### The fetch of a word -/

theorem length_of_readBytes (m : Memory) (a : Addr) (n : Nat) (bs : List Byte) (h : readBytes m a n = some bs) :
    bs.length = n := by
  induction n generalizing a bs with
  | zero => simp_all [readBytes]
  | succ n ih =>
    simp only [readBytes, Option.bind_eq_bind, Option.bind_eq_some_iff, Option.pure_def, Option.some_inj] at h
    obtain ⟨b, -, rest, hrest, rfl⟩ := h
    rw [List.length_cons, ih _ _ hrest]

/-- Four bytes are the bytes of the word they number (20_memory.md R52, R53). -/
theorem eq_bytesOfWord (bs : List Byte) (w : Word) (hlen : bs.length = 4) (h : numberOfBytes bs = w.toNat) :
    bs = bytesOfWord w := by
  obtain ⟨b0, b1, b2, b3, rfl⟩ := List.length_eq_four.mp hlen
  rw [numberOfBytes_four] at h
  simp only [bytesOfWord, List.cons.injEq, and_true, ← BitVec.toNat_inj, BitVec.extractLsb'_toNat,
    Nat.shiftRight_eq_div_pow, ← h]
  omega

theorem readBytes_of_memRead (m : Memory) (a : Addr) (w : Word) (h : memRead m a 4 = some w.toNat) :
    readBytes m a 4 = some (bytesOfWord w) := by
  obtain ⟨bs, hbs, hnum⟩ := Option.map_eq_some_iff.mp h
  rw [hbs, eq_bytesOfWord bs w (length_of_readBytes m a 4 bs hbs) hnum]

/-- The verdict the machine acts on is the decoder's on the word at `pc` (40_fp_store_single.md R100). -/
theorem fetchInstr_of_wordAtPc {s : State} {w : Word} (h : WordAtPc s w) : fetchInstr s = accept s (decode w) := by
  obtain ⟨hpc, hbytes, hread⟩ := h
  have hstop : fetchStop s = none :=
    (fetchStop_none s).mpr ⟨hpc, fun a ha => (hbytes a ha).1, fun a ha => (hbytes a ha).2⟩
  simp only [fetchInstr, fetchVerdict_of_word s w hstop (readBytes_of_memRead s.mem s.pc w hread)]

/-! ### The step on each verdict -/

theorem step_of_accept_ok {s : State} {w : Word} {i : Instr} (h : WordAtPc s w) (ha : accept s (decode w) = .ok i) :
    step s = exec i s := by
  simp only [step, fetchInstr_of_wordAtPc h, ha]

theorem step_of_accept_error {s : State} {w : Word} {x : Stop} (h : WordAtPc s w)
    (ha : accept s (decode w) = .error x) : step s = x.toResult := by
  simp only [step, fetchInstr_of_wordAtPc h, ha]

/-- Settles O19: the machine accepts a valid instruction as it stands. -/
theorem stepRunsDecodedInstruction : Obligations.StepRunsDecodedInstruction := by
  intro s w i hword hdecode
  exact step_of_accept_ok hword (by rw [hdecode, accept])

theorem not_wellFormed_of_invalidForm {w : Word} {i : Instr} (h : decode w = .invalidForm i) :
    i.wellFormed = false := by
  have hword : encode i = w := (instr?_decode_eq_some_iff w i).mp (by rw [h, Verdict.instr?])
  rw [← hword, decode_encode, verdictOfForm] at h
  split at h
  · cases h
  · rename_i hwf
    exact Bool.eq_false_iff.mpr hwf

/-- A store with update stops at the test of its form before any other (30_encoding.md R90). -/
theorem storeUpdate_of_formStop {s : State} {ra : RegNum} {x : Stop} (ea : Addr) (fs : RegNum)
    (h : updateFormStop s ra = some x) : storeUpdate s ra ea fs = x.toResult := by
  rw [storeUpdate, h, Option.some_or, finish_some]

theorem updateFormStop_of_refused {s : State} {ra : RegNum} (hra : ra = 0)
    (h : s.cfg.invalidFormRA0 ≠ .snapshot) : updateFormStop s ra = some (.refused .invalidForm) := by
  have hrefuse : s.cfg.invalidFormRA0 = .refuse := by
    cases hc : s.cfg.invalidFormRA0 with
    | refuse => rfl
    | snapshot => exact absurd hc h
  rw [updateFormStop, if_pos ⟨hra, hrefuse⟩]

/-- A form the machine does not execute is refused (30_encoding.md R90). -/
theorem exec_of_not_formRuns (i : Instr) (s : State) (h : ¬ FormRuns i s) : exec i s = .refused .invalidForm := by
  obtain ⟨hwf, hcfg⟩ := not_or.mp h
  cases i with
  | stfs fs ra d => exact absurd rfl hwf
  | stfsx fs ra rb => exact absurd rfl hwf
  | stfsu fs ra d =>
    have hra : ra = 0 := by simpa [Instr.wellFormed] using hwf
    exact storeUpdate_of_formStop _ fs (updateFormStop_of_refused hra hcfg)
  | stfsux fs ra rb =>
    have hra : ra = 0 := by simpa [Instr.wellFormed] using hwf
    exact storeUpdate_of_formStop _ fs (updateFormStop_of_refused hra hcfg)

/-- Settles O20: the machine refuses the word itself, or goes on to its instruction, which refuses an invalid form
unless the configuration lets it run. -/
theorem stepOnOtherVerdicts : Obligations.StepOnOtherVerdicts := by
  intro s w hword
  refine ⟨fun hdecode => ?_, fun i hdecode => ⟨fun hrc => ?_, fun hrc => ?_⟩, fun i hdecode => ?_⟩
  · exact step_of_accept_error hword (x := .refused .notInScope) (by rw [hdecode, accept])
  · exact step_of_accept_error hword (x := .refused .reservedRc) (by simp only [hdecode, accept, hrc])
  · exact step_of_accept_ok hword (by simp only [hdecode, accept, hrc])
  · have hstep : step s = exec i s := step_of_accept_ok hword (by rw [hdecode, accept])
    refine ⟨fun hrefuse => ?_, fun _ => hstep⟩
    have hruns : ¬ FormRuns i s := by simp [FormRuns, not_wellFormed_of_invalidForm hdecode, hrefuse]
    rw [hstep, exec_of_not_formRuns i s hruns]

/-- Settles O22: the decoder answers valid forms only, so the premises are the conditions under which the instruction
completes. -/
theorem launchPremisesSuffice : Obligations.LaunchPremisesSuffice := by
  intro s w i hword hdecode hready hstore
  have hform : FormRuns i s := .inl (decodeThenEncode w i hdecode).1
  have hstep : step s = .next (completed i s) :=
    (stepRunsDecodedInstruction s w i hword hdecode).trans (exec_of_canRun ⟨hready, hform, hstore⟩)
  refine ⟨completed i s, hstep, storeDone_completed i s, fun hu => ?_, fun hu => ?_⟩
  · simp [completed_gpr, hu]
  · simp [completed_gpr, hu, updateVal]

/-! ### Runs -/

/-- A run of one step more is a step that is taken and a run from where it leads. -/
theorem run_succ_next (M : Host.Core) (k : Nat) (s t : M.State) :
    M.run (k + 1) s = .next t ↔ ∃ u, M.step s = .next u ∧ M.run k u = .next t := by
  rw [Host.Core.run]
  cases M.step s <;> simp

/-- What one step that is taken contributes to a run. -/
theorem step_straight {s t : State} (h : step s = .next t) :
    t.pc.toNat = s.pc.toNat + 4 ∧ t.fpr = s.fpr ∧ t.msr = s.msr ∧ t.cfg = s.cfg := by
  obtain ⟨i, -, hcan, rfl⟩ := (step_next s t).mp h
  exact ⟨toNat_pc_completed hcan, completed_fpr i s, completed_msr i s, completed_cfg i s⟩

/-- Settles O37, by induction on the number of steps, from every start state. -/
theorem runsAreStraightLines : Obligations.RunsAreStraightLines := by
  intro k
  induction k with
  | zero =>
    rintro s t ⟨⟩
    exact ⟨rfl, rfl, rfl, rfl⟩
  | succ k ih =>
    intro s t hrun
    obtain ⟨u, hstep, hrest⟩ := (run_succ_next core k s t).mp hrun
    obtain ⟨hpc, hfpr, hmsr, hcfg⟩ := step_straight hstep
    obtain ⟨hpc', hfpr', hmsr', hcfg'⟩ := ih u t hrest
    exact ⟨by omega, hfpr'.trans hfpr, hmsr'.trans hmsr, hcfg'.trans hcfg⟩

end Sys2Proof.Machine
end

section
/-! The architectural conversion (41_single_from_double.md). First each of its cases with its whole result; then the
statements that follow from the cases alone: the flags, the operands that are not finite, and flushing. -/

namespace Sys2Proof.Machine

/-! ### The cases (R122 to R131) -/

/-- The bits of a finite operand's significand that the result keeps, after rounding (41_single_from_double.md R125
steps 3 to 8). -/
def keptBits (rn : RoundingMode) (b : Dword) : Nat :=
  roundedBits rn (signOf b) (significandOf b) (shiftOf b)

/-- The magnitude image a finite operand rounds to, before the test for overflow (R125 steps 9 and 10). -/
def roundedMag (rn : RoundingMode) (b : Dword) : Nat :=
  if exponentOf b < 897 then keptBits rn b else (exponentOf b - 896) * 2 ^ 23 + keptBits rn b - 2 ^ 23

/-- Every bit the result does not keep is zero (R126). -/
abbrev IsExact (b : Dword) : Prop := significandOf b % 2 ^ shiftOf b = 0

/-- A finite operand that is not zero, of magnitude below `2^-126` (R128). -/
abbrev IsTiny (b : Dword) : Prop := significandOf b ≠ 0 ∧ exponentOf b < 897

/-- The flags of a NaN (R129). -/
def nanFlags (b : Dword) : FpFlags := if b.getLsbD 51 then FpFlags.none else FpFlags.invalid

/-- The flags of a result that neither overflowed nor was flushed (R126, R128). -/
def roundedFlags (b : Dword) : FpFlags :=
  if IsExact b then FpFlags.none else if exponentOf b < 897 then FpFlags.underflow else FpFlags.inexact

theorem significandOf_eq_zero_iff (b : Dword) : significandOf b = 0 ↔ exponentOf b = 0 ∧ fractionOf b = 0 := by
  unfold significandOf
  split <;> omega

theorem shiftOf_of_lt {b : Dword} (h : exponentOf b < 897) : shiftOf b = 926 - scaleOf b := if_pos h

theorem shiftOf_of_le {b : Dword} (h : 897 ≤ exponentOf b) : shiftOf b = 29 := if_neg (by omega)

theorem shiftOf_pos (b : Dword) : 0 < shiftOf b := by
  unfold shiftOf scaleOf
  split <;> omega

theorem roundedMag_of_lt {rn : RoundingMode} {b : Dword} (h : exponentOf b < 897) :
    roundedMag rn b = keptBits rn b := if_pos h

theorem roundedMag_of_le {rn : RoundingMode} {b : Dword} (h : 897 ≤ exponentOf b) :
    roundedMag rn b = (exponentOf b - 896) * 2 ^ 23 + keptBits rn b - 2 ^ 23 := if_neg (by omega)

/-- A tiny operand keeps at most 23 bits, or rounds up to the minimum normal number. -/
theorem keptBits_le_of_lt (rn : RoundingMode) {b : Dword} (h : exponentOf b < 897) : keptBits rn b ≤ 2 ^ 23 := by
  have hshift : 30 ≤ shiftOf b := by rw [shiftOf_of_lt h, scaleOf]; omega
  have hdiv : significandOf b / 2 ^ shiftOf b ≤ significandOf b / 2 ^ 30 :=
    Nat.div_le_div_left (Nat.pow_le_pow_right (by decide) hshift) (by decide)
  have hround := (roundedBits_le rn (signOf b) (significandOf b) (shiftOf b)).2
  have hsig := significandOf_lt b
  unfold keptBits
  omega

theorem roundedMag_lt_of_lt (rn : RoundingMode) {b : Dword} (h : exponentOf b < 897) :
    roundedMag rn b < infinityMag := by
  have hkept := keptBits_le_of_lt rn h
  rw [roundedMag_of_lt h, infinityMag]
  omega

theorem significandOf_of_le {b : Dword} (h : 897 ≤ exponentOf b) : significandOf b = 2 ^ 52 + fractionOf b :=
  if_neg (by omega)

/-- A normal operand keeps 24 significant bits, or rounds up to the next power of two. -/
theorem keptBits_bounds_of_le (rn : RoundingMode) {b : Dword} (h : 897 ≤ exponentOf b) :
    2 ^ 23 ≤ keptBits rn b ∧ keptBits rn b ≤ 2 ^ 24 := by
  have hround := roundedBits_le rn (signOf b) (significandOf b) 29
  rw [keptBits, shiftOf_of_le h]
  rw [significandOf_of_le h] at hround ⊢
  have hfrac := fractionOf_lt b
  omega

theorem sfd_infinity (mode : NanNarrow) (rn : RoundingMode) (ni : Bool) {b : Dword} (he : exponentOf b = 2047)
    (hf : fractionOf b = 0) : sfdArchitectural mode rn ni b = (packSingle (signOf b) infinityMag, FpFlags.none) := by
  have hclass : classify b = .infinity := by simp [classify, he, hf]
  simp only [sfdArchitectural, hclass]

theorem sfd_nan (mode : NanNarrow) (rn : RoundingMode) (ni : Bool) {b : Dword} (he : exponentOf b = 2047)
    (hf : fractionOf b ≠ 0) :
    sfdArchitectural mode rn ni b = (nanNarrow mode b, nanFlags b) := by
  have hclass : classify b = if b.getLsbD 51 then .quietNaN else .signallingNaN := by
    rw [classify, if_neg (by omega), if_pos he, if_neg hf]
  cases hq : b.getLsbD 51 <;> simp only [sfdArchitectural, hclass, nanFlags, hq, if_true, Bool.false_eq_true, if_false]

theorem sfd_flushed (mode : NanNarrow) (rn : RoundingMode) {b : Dword} (h : IsTiny b) :
    sfdArchitectural mode rn true b = (packSingle (signOf b) 0, FpFlags.underflow) := by
  obtain ⟨hz, he⟩ := h
  rw [sfd_finite mode rn true b (by omega) hz, if_pos he, if_pos rfl]

theorem sfd_zero (mode : NanNarrow) (rn : RoundingMode) (ni : Bool) {b : Dword} (h : significandOf b = 0) :
    sfdArchitectural mode rn ni b = (packSingle (signOf b) 0, FpFlags.none) := by
  obtain ⟨he, hf⟩ := (significandOf_eq_zero_iff b).mp h
  have hclass : classify b = .zero := by simp [classify, he, hf]
  simp only [sfdArchitectural, hclass]

/-- A finite operand that is not flushed: zero, denormal and normal operands in one form. -/
theorem sfd_rounded (mode : NanNarrow) (rn : RoundingMode) (ni : Bool) {b : Dword} (hfin : exponentOf b ≠ 2047)
    (hni : ¬ (ni = true ∧ IsTiny b)) :
    sfdArchitectural mode rn ni b =
      if infinityMag ≤ roundedMag rn b then (packSingle (signOf b) (overflowMag rn (signOf b)), FpFlags.overflow)
      else (packSingle (signOf b) (roundedMag rn b), roundedFlags b) := by
  by_cases hz : significandOf b = 0
  · have hexact : IsExact b := by simp [IsExact, hz]
    have he : exponentOf b < 897 := by
      have := (significandOf_eq_zero_iff b).mp hz
      omega
    have hmag : roundedMag rn b = 0 := by
      rw [roundedMag_of_lt he, keptBits, roundedBits_exact _ _ _ _ hexact, hz, Nat.zero_div]
    rw [sfd_zero mode rn ni hz, hmag, if_neg (by decide), roundedFlags, if_pos hexact]
  · rw [sfd_finite mode rn ni b hfin hz]
    by_cases he : exponentOf b < 897
    · have hnoflush : ni ≠ true := fun h => hni ⟨h, hz, he⟩
      have hlt := Nat.not_le.mpr (roundedMag_lt_of_lt rn he)
      rw [if_pos he, if_neg hnoflush, if_neg hlt, roundedMag_of_lt he, roundedFlags, if_pos he, keptBits, ite_not]
    · have hshift : shiftOf b = 29 := shiftOf_of_le (Nat.not_lt.mp he)
      simp only [if_neg he, roundedMag_of_le (Nat.not_lt.mp he), roundedFlags, keptBits, IsExact, hshift, ite_not]

/-- Every case of the architectural conversion, with its whole result (R122 to R131). -/
theorem sfd_cases (mode : NanNarrow) (rn : RoundingMode) (ni : Bool) (b : Dword) :
    (exponentOf b = 2047 ∧ fractionOf b ≠ 0 ∧ sfdArchitectural mode rn ni b = (nanNarrow mode b, nanFlags b)) ∨
    (exponentOf b = 2047 ∧ fractionOf b = 0 ∧ sfdArchitectural mode rn ni b =
      (packSingle (signOf b) infinityMag, FpFlags.none)) ∨
    (ni = true ∧ IsTiny b ∧ sfdArchitectural mode rn ni b = (packSingle (signOf b) 0, FpFlags.underflow)) ∨
    (exponentOf b ≠ 2047 ∧ infinityMag ≤ roundedMag rn b ∧ sfdArchitectural mode rn ni b =
      (packSingle (signOf b) (overflowMag rn (signOf b)), FpFlags.overflow)) ∨
    (exponentOf b ≠ 2047 ∧ roundedMag rn b < infinityMag ∧ sfdArchitectural mode rn ni b =
      (packSingle (signOf b) (roundedMag rn b), roundedFlags b)) := by
  by_cases he : exponentOf b = 2047
  · by_cases hf : fractionOf b = 0
    · exact .inr (.inl ⟨he, hf, sfd_infinity mode rn ni he hf⟩)
    · exact .inl ⟨he, hf, sfd_nan mode rn ni he hf⟩
  · by_cases hflush : ni = true ∧ IsTiny b
    · obtain ⟨rfl, htiny⟩ := hflush
      exact .inr (.inr (.inl ⟨rfl, htiny, sfd_flushed mode rn htiny⟩))
    · have h := sfd_rounded mode rn ni he hflush
      by_cases hover : infinityMag ≤ roundedMag rn b
      · exact .inr (.inr (.inr (.inl ⟨he, hover, h.trans (if_pos hover)⟩)))
      · exact .inr (.inr (.inr (.inr ⟨he, Nat.not_le.mp hover, h.trans (if_neg hover)⟩)))

/-! ### Flags -/

theorem roundedFlags_of_exact {b : Dword} (h : IsExact b) : roundedFlags b = FpFlags.none := if_pos h

@[simp] theorem roundedFlags_ox (b : Dword) : (roundedFlags b).ox = false := by
  unfold roundedFlags
  split_ifs <;> rfl

@[simp] theorem roundedFlags_vxsnan (b : Dword) : (roundedFlags b).vxsnan = false := by
  unfold roundedFlags
  split_ifs <;> rfl

/-- `XX` is returned when a bit was lost. -/
theorem roundedFlags_xx_iff (b : Dword) : (roundedFlags b).xx = true ↔ ¬ IsExact b := by
  unfold roundedFlags
  split_ifs with hexact he
  · exact iff_of_false Bool.false_ne_true (not_not_intro hexact)
  · exact iff_of_true rfl hexact
  · exact iff_of_true rfl hexact

/-- `UX` is returned when a bit was lost and the operand was tiny. -/
theorem roundedFlags_ux_iff (b : Dword) : (roundedFlags b).ux = true ↔ ¬ IsExact b ∧ exponentOf b < 897 := by
  unfold roundedFlags
  split_ifs with hexact he
  · exact iff_of_false Bool.false_ne_true fun h => h.1 hexact
  · exact iff_of_true rfl ⟨hexact, he⟩
  · exact iff_of_false Bool.false_ne_true fun h => he h.2

@[simp] theorem nanFlags_xx (b : Dword) : (nanFlags b).xx = false := by
  unfold nanFlags
  split <;> rfl

@[simp] theorem nanFlags_ox (b : Dword) : (nanFlags b).ox = false := by
  unfold nanFlags
  split <;> rfl

@[simp] theorem nanFlags_ux (b : Dword) : (nanFlags b).ux = false := by
  unfold nanFlags
  split <;> rfl

theorem nanFlags_vxsnan (b : Dword) : (nanFlags b).vxsnan = !b.getLsbD 51 := by
  unfold nanFlags
  cases b.getLsbD 51 <;> rfl

/-- Settles O42: of the cases of the conversion only a NaN's can return `VXSNAN`. -/
theorem signallingNanAlone : Obligations.SignallingNanAlone := by
  intro mode rn ni b
  obtain ⟨he, hf, h⟩ | ⟨he, hf, h⟩ | ⟨-, ⟨-, he⟩, h⟩ | ⟨he, -, h⟩ | ⟨he, -, h⟩ := sfd_cases mode rn ni b
  · simp [h, he, hf, nanFlags_vxsnan]
  · simp [h, hf, FpFlags.none]
  · have hfin : exponentOf b ≠ 2047 := by omega
    simp [h, hfin, FpFlags.underflow]
  · simp [h, he, FpFlags.overflow]
  · simp [h, he]

/-- Settles O49: each case of the conversion returns one of the five sets, and each set has an operand. -/
theorem flagSetsReturned : Obligations.FlagSetsReturned := by
  intro f
  constructor
  · rintro ⟨mode, rn, ni, b, rfl⟩
    obtain ⟨-, -, h⟩ | ⟨-, -, h⟩ | ⟨-, -, h⟩ | ⟨-, -, h⟩ | ⟨-, -, h⟩ := sfd_cases mode rn ni b
    · rw [h, nanFlags]
      split <;> simp
    · simp [h]
    · simp [h]
    · simp [h]
    · rw [h, roundedFlags]
      split
      · simp
      · split <;> simp
  · rintro (rfl | rfl | rfl | rfl | rfl)
    · exact ⟨.recommended, .nearest, false, 0, rfl⟩
    · exact ⟨.recommended, .nearest, false, 0x3FB999999999999A, rfl⟩
    · exact ⟨.recommended, .nearest, false, 0x47F0000000000000, rfl⟩
    · exact ⟨.recommended, .nearest, true, 0x37D0000000000000, rfl⟩
    · exact ⟨.recommended, .nearest, false, 0x7FF0000000000001, rfl⟩

/-! ### Zeros, infinities and NaN (R123, R124) -/

/-- Settles O40: the conversion of either image computes, and its result has no `rn` or `ni` in it. -/
theorem zeroAndInfinityExact : Obligations.ZeroAndInfinityExact := by
  intro mode rn ni s
  cases s <;> exact ⟨rfl, rfl⟩

/-- The bits of a quiet NaN: the payload, nine ones for the quiet bit and the exponent, and the sign. -/
theorem getLsbD_quietSingle (sign : BitVec 1) (payload : BitVec 22) (i : Nat) :
    (quietSingle sign payload).getLsbD i =
      if i < 22 then payload.getLsbD i else if i < 31 then true else sign.getLsbD (i - 31) := by
  have hones : 0x1FF#9 = BitVec.allOnes 9 := rfl
  rw [quietSingle, hones, BitVec.getLsbD_append, BitVec.getLsbD_append, BitVec.getLsbD_allOnes, Nat.sub_sub]
  split
  · rfl
  · by_cases h : i < 31
    · rw [if_pos (by omega), if_pos h, decide_eq_true (by omega)]
    · rw [if_neg (by omega), if_neg h]

theorem quietSingle_exponent (sign : BitVec 1) (payload : BitVec 22) :
    (quietSingle sign payload).extractLsb' 23 8 = 0xFF := by
  have hones : (0xFF : BitVec 8) = BitVec.allOnes 8 := rfl
  rw [hones]
  ext i hi
  rw [BitVec.getElem_extractLsb', getLsbD_quietSingle, if_neg (by omega), if_pos (by omega), BitVec.getElem_allOnes]

theorem quietSingle_quietBit (sign : BitVec 1) (payload : BitVec 22) :
    (quietSingle sign payload).getLsbD 22 = true := by
  rw [getLsbD_quietSingle, if_neg (by omega), if_pos (by omega)]

/-- The recommended word as R124 writes it: the quiet bit covers the top bit of the 23 bits below the exponent. -/
theorem quietSingle_eq_or (b : Dword) :
    quietSingle (b.extractLsb' 63 1) (b.extractLsb' 29 22) =
      ((b.extractLsb' 63 1).setWidth 32 <<< 31) ||| 0x7FC00000 ||| (b.extractLsb' 29 23).setWidth 32 := by
  have hconst : (0x7FC00000 : Word) = quietSingle 0 0 := rfl
  rw [hconst]
  ext i hi
  simp only [← BitVec.getLsbD_eq_getElem, BitVec.getLsbD_or, BitVec.getLsbD_shiftLeft, BitVec.getLsbD_setWidth,
    BitVec.getLsbD_extractLsb', getLsbD_quietSingle]
  grind

/-- Every narrowed NaN is a quiet single, whose sign and payload are the only freedom (log 9). -/
theorem nanNarrow_eq_quietSingle (mode : NanNarrow) (b : Dword) :
    ∃ sign payload, nanNarrow mode b = quietSingle sign payload := by
  cases mode <;> exact ⟨_, _, rfl⟩

/-- Settles O41, by the bits of a quiet single. -/
theorem nanIsQuieted : Obligations.NanIsQuieted := by
  intro mode rn ni b he hf
  rw [sfd_nan mode rn ni he hf]
  obtain ⟨sign, payload, hword⟩ := nanNarrow_eq_quietSingle mode b
  refine ⟨?_, ?_, rfl, ?_⟩
  · rw [hword, quietSingle_exponent]
  · rw [hword, quietSingle_quietBit]
  · rintro rfl
    exact quietSingle_eq_or b

/-! ### Flushing (R130) -/

theorem doubleMagUnits_pos_iff (b : Dword) : 0 < doubleMagUnits b ↔ significandOf b ≠ 0 := by
  rw [doubleMagUnits_eq, Nat.mul_pos_iff_of_pos_right (Nat.two_pow_pos _), Nat.pos_iff_ne_zero]

/-- The bound `2^-126`, in units of `2^-1074`, is a bound of the exponent field. -/
theorem doubleMagUnits_lt_iff (b : Dword) : doubleMagUnits b < 2 ^ 948 ↔ exponentOf b < 897 := by
  have hsig := significandOf_lt b
  rw [doubleMagUnits_eq]
  by_cases he : exponentOf b < 897
  · have hexp : 53 + (scaleOf b - 1) ≤ 948 := by rw [scaleOf]; omega
    have hscaled := Nat.mul_lt_mul_of_pos_right hsig (Nat.two_pow_pos (scaleOf b - 1))
    rw [← Nat.pow_add] at hscaled
    refine iff_of_true (hscaled.trans_le ?_) he
    gcongr
    decide
  · have hexp : 948 ≤ 52 + (scaleOf b - 1) := by rw [scaleOf]; omega
    have hlow : 2 ^ 52 ≤ significandOf b := by rw [significandOf_of_le (Nat.not_lt.mp he)]; omega
    have hscaled := Nat.mul_le_mul_right (2 ^ (scaleOf b - 1)) hlow
    rw [← Nat.pow_add] at hscaled
    refine iff_of_false (Nat.not_lt.mpr (le_trans ?_ hscaled)) he
    gcongr
    decide

theorem isTiny_iff (b : Dword) : 0 < doubleMagUnits b ∧ doubleMagUnits b < 2 ^ 948 ↔ IsTiny b := by
  rw [doubleMagUnits_pos_iff, doubleMagUnits_lt_iff]

theorem sfd_ni_irrelevant (mode : NanNarrow) (rn : RoundingMode) {b : Dword} (h : ¬ IsTiny b) :
    sfdArchitectural mode rn true b = sfdArchitectural mode rn false b := by
  by_cases he : exponentOf b = 2047
  · by_cases hf : fractionOf b = 0
    · rw [sfd_infinity mode rn true he hf, sfd_infinity mode rn false he hf]
    · rw [sfd_nan mode rn true he hf, sfd_nan mode rn false he hf]
  · rw [sfd_rounded mode rn true he (fun hni => h hni.2), sfd_rounded mode rn false he (fun hni => h hni.2)]

/-- Settles O45: a tiny operand is flushed, and for the others the conversion does not look at `ni`. -/
theorem flushToZero : Obligations.FlushToZero := by
  intro mode rn b
  rw [isTiny_iff]
  exact ⟨fun hpos hlt => sfd_flushed mode rn ((isTiny_iff b).mp ⟨hpos, hlt⟩), sfd_ni_irrelevant mode rn⟩

/-! ### Worked conversions (R134) -/

/-- Settles O53, by evaluation of each row. -/
theorem workedConversions : Obligations.WorkedConversions := by
  refine ⟨?_, ?_, ?_, ?_, ?_, ?_, ?_, ?_, ?_, ?_, ?_, ?_⟩ <;>
    · unfold conversionRow
      decide +kernel

end Sys2Proof.Machine
end

section
/-! The values the architectural conversion stores (41_single_from_double.md R125 to R128). First where a rounded
magnitude overflows; then when a stored value is the operand's; last how far and to which side rounding moves it. -/

namespace Sys2Proof.Machine

/-! ### The rounding modes (10_state.md R32) -/

/-- The mode rounds results of this sign toward zero. -/
abbrev TowardZero (rn : RoundingMode) (s : Bool) : Prop :=
  rn = .zero ∨ (rn = .pinf ∧ s = true) ∨ (rn = .minf ∧ s = false)

/-- The mode rounds results of this sign away from zero. -/
abbrev AwayFromZero (rn : RoundingMode) (s : Bool) : Prop :=
  (rn = .pinf ∧ s = false) ∨ (rn = .minf ∧ s = true)

theorem roundsUp_nearest_iff (s : Bool) (lo rem half : Nat) :
    roundsUp .nearest s lo rem half = true ↔ half < rem ∨ rem = half ∧ lo % 2 = 1 := by
  simp only [roundsUp, Bool.or_eq_true, Bool.and_eq_true, decide_eq_true_eq]

theorem roundsUp_of_towardZero {rn : RoundingMode} {s : Bool} (h : TowardZero rn s) (lo rem half : Nat) :
    roundsUp rn s lo rem half = false := by
  obtain rfl | ⟨rfl, rfl⟩ | ⟨rfl, rfl⟩ := h <;> rfl

theorem roundsUp_iff_of_awayFromZero {rn : RoundingMode} {s : Bool} (h : AwayFromZero rn s) (lo rem half : Nat) :
    roundsUp rn s lo rem half = true ↔ rem ≠ 0 := by
  obtain ⟨rfl, rfl⟩ | ⟨rfl, rfl⟩ := h <;> simp [roundsUp]

/-! ### Overflow (R127) -/

/-- `OX` is returned exactly when the rounded magnitude does not fit below the infinity, whatever `ni` is. -/
theorem ox_iff (mode : NanNarrow) (rn : RoundingMode) (ni : Bool) {b : Dword} (hfin : DoubleFinite b) :
    (sfdArchitectural mode rn ni b).2.ox = true ↔ infinityMag ≤ roundedMag rn b := by
  obtain ⟨he, -⟩ | ⟨he, -⟩ | ⟨-, ⟨-, he⟩, h⟩ | ⟨-, hover, h⟩ | ⟨-, hlt, h⟩ := sfd_cases mode rn ni b
  · exact absurd he hfin
  · exact absurd he hfin
  · exact iff_of_false (by simp [h, FpFlags.underflow]) (Nat.not_le.mpr (roundedMag_lt_of_lt rn he))
  · exact iff_of_true (by simp [h, FpFlags.overflow]) hover
  · exact iff_of_false (by simp [h]) (Nat.not_le.mpr hlt)

/-- The rounded magnitude of a normal operand, by its exponent and fraction: the low 29 bits go, the exponent is
rebiased, and the mode may add one (R125 step 10). -/
theorem roundedMag_eq (rn : RoundingMode) {b : Dword} (h : 897 ≤ exponentOf b) :
    roundedMag rn b = (exponentOf b - 896) * 2 ^ 23 + fractionOf b / 2 ^ 29 +
      if roundsUp rn (signOf b) (2 ^ 23 + fractionOf b / 2 ^ 29) (fractionOf b % 2 ^ 29) (2 ^ 28) then 1 else 0 := by
  have hlo : (2 ^ 52 + fractionOf b) / 2 ^ 29 = 2 ^ 23 + fractionOf b / 2 ^ 29 := by omega
  have hrem : (2 ^ 52 + fractionOf b) % 2 ^ 29 = fractionOf b % 2 ^ 29 := by omega
  simp only [roundedMag_of_le h, keptBits, shiftOf_of_le h, significandOf_of_le h, roundedBits,
    Nat.shiftRight_eq_div_pow, hlo, hrem, Nat.reduceSub]
  omega

/-- A rounded magnitude reaches the infinity from `2^128`, or where the mode rounds up from the last binade's top
(R127). -/
theorem infinityMag_le_roundedMag_iff (rn : RoundingMode) (b : Dword) :
    infinityMag ≤ roundedMag rn b ↔
      0x47F0000000000000 ≤ (b.setWidth 63).toNat ∨
        0x47EFFFFFE0000000 ≤ (b.setWidth 63).toNat ∧
          roundsUp rn (signOf b) (2 ^ 23 + fractionOf b / 2 ^ 29) (fractionOf b % 2 ^ 29) (2 ^ 28) = true := by
  have hfrac := fractionOf_lt b
  rw [magnitudeImage]
  by_cases he : exponentOf b < 897
  · have hlt := roundedMag_lt_of_lt rn he
    omega
  · rw [roundedMag_eq rn (Nat.not_lt.mp he), infinityMag]
    split
    · rename_i hup
      simp only [hup, and_true]
      omega
    · rename_i hup
      simp only [hup, Bool.false_eq_true, and_false, or_false]
      omega

theorem overflow_iff_of_towardZero {rn : RoundingMode} {b : Dword} (h : TowardZero rn (signOf b)) :
    infinityMag ≤ roundedMag rn b ↔ 0x47F0000000000000 ≤ (b.setWidth 63).toNat := by
  rw [infinityMag_le_roundedMag_iff, roundsUp_of_towardZero h]
  simp only [Bool.false_eq_true, and_false, or_false]

theorem overflow_iff_of_awayFromZero {rn : RoundingMode} {b : Dword} (h : AwayFromZero rn (signOf b)) :
    infinityMag ≤ roundedMag rn b ↔ 0x47EFFFFFE0000000 < (b.setWidth 63).toNat := by
  rw [infinityMag_le_roundedMag_iff, roundsUp_iff_of_awayFromZero h, magnitudeImage]
  omega

/-- The kept bits of the maximum finite single are odd, so the tie above them rounds up. -/
theorem overflow_iff_nearest (b : Dword) :
    infinityMag ≤ roundedMag .nearest b ↔ 0x47EFFFFFF0000000 ≤ (b.setWidth 63).toNat := by
  rw [infinityMag_le_roundedMag_iff, roundsUp_nearest_iff, magnitudeImage]
  omega

/-- Settles O47: each mode rounds the operand's sign toward zero, away from it or to nearest. -/
theorem overflowThreshold : Obligations.OverflowThreshold := by
  intro mode rn ni b hfin
  rw [ox_iff mode rn ni hfin]
  cases rn with
  | nearest => exact overflow_iff_nearest b
  | zero => exact overflow_iff_of_towardZero (.inl rfl)
  | pinf =>
    cases hs : signOf b with
    | false => exact overflow_iff_of_awayFromZero (.inl ⟨rfl, hs⟩)
    | true => exact overflow_iff_of_towardZero (.inr (.inl ⟨rfl, hs⟩))
  | minf =>
    cases hs : signOf b with
    | false => exact overflow_iff_of_towardZero (.inr (.inr ⟨rfl, hs⟩))
    | true => exact overflow_iff_of_awayFromZero (.inr ⟨rfl, hs⟩)

theorem packSingle_overflowMag (rn : RoundingMode) (s : Bool) :
    packSingle s (overflowMag rn s) = BitVec.ofBool s ++
      (if rn = .nearest ∨ (rn = .pinf ∧ s = false) ∨ (rn = .minf ∧ s = true) then
          0x7F800000#31 else 0x7F7FFFFF#31) := by
  cases rn <;> cases s <;> rfl

/-- Settles O48: of the cases of the conversion only the overflow returns `OX`. -/
theorem overflowResult : Obligations.OverflowResult := by
  intro mode rn ni b hox
  obtain ⟨-, -, h⟩ | ⟨-, -, h⟩ | ⟨-, -, h⟩ | ⟨-, -, h⟩ | ⟨-, -, h⟩ := sfd_cases mode rn ni b
  · simp [h] at hox
  · simp [h, FpFlags.none] at hox
  · simp [h, FpFlags.underflow] at hox
  · rw [h]
    exact ⟨rfl, packSingle_overflowMag rn (signOf b)⟩
  · simp [h] at hox

/-! ### Stored values (R126, R128) -/

/-- One unit of `2^(scaleOf b - 1)` and the dropped bits make a unit in the last place. -/
theorem ulpUnits_eq (b : Dword) : ulpUnits b = 2 ^ shiftOf b * 2 ^ (scaleOf b - 1) := by
  rw [← Nat.pow_add, ulpUnits]
  congr 1
  by_cases h : exponentOf b < 897
  · rw [shiftOf_of_lt h, scaleOf]
    omega
  · rw [shiftOf_of_le (Nat.not_lt.mp h), scaleOf]
    omega

/-- The rounded magnitude, an image, stands for the kept bits in units in the last place. -/
theorem singleMagUnits_roundedMag (rn : RoundingMode) (s : Bool) {b : Dword} (hlt : roundedMag rn b < infinityMag) :
    singleMagUnits (packSingle s (roundedMag rn b)) = keptBits rn b * ulpUnits b := by
  rw [infinityMag] at hlt
  by_cases h : exponentOf b < 897
  · have hulp : max (exponentOf b + 28) 925 = 925 := by omega
    rw [roundedMag_of_lt h, packSingle_units_low s _ (keptBits_le_of_lt rn h), ulpUnits, hulp]
  · have hulp : max (exponentOf b + 28) 925 = exponentOf b - 896 + 924 := by omega
    obtain ⟨hlow, hhigh⟩ := keptBits_bounds_of_le rn (Nat.not_lt.mp h)
    rw [roundedMag_of_le (Nat.not_lt.mp h)] at hlt ⊢
    rw [packSingle_units_high s _ _ (by omega) hlow hhigh (by omega), ulpUnits, hulp]

theorem singleFinite_packSingle (s : Bool) {mag : Nat} (h : mag < infinityMag) : SingleFinite (packSingle s mag) := by
  rw [infinityMag] at h
  rw [SingleFinite, packSingle_exponent s mag (by omega)]
  omega

theorem singleUnits_packSingle (s : Bool) (mag : Nat) :
    singleUnits (packSingle s mag) =
      if s then -(singleMagUnits (packSingle s mag) : Int) else singleMagUnits (packSingle s mag) := by
  rw [singleUnits, packSingle_sign]

/-- Two values of one sign are equal when their magnitudes are. -/
theorem singleUnits_eq_doubleUnits_iff (b : Dword) (mag : Nat) :
    singleUnits (packSingle (signOf b) mag) = doubleUnits b ↔
      singleMagUnits (packSingle (signOf b) mag) = doubleMagUnits b := by
  rw [singleUnits_packSingle, doubleUnits]
  split <;> omega

/-- A rounded result has the operand's value exactly when no bit was lost. -/
theorem roundedMag_value_iff (rn : RoundingMode) {b : Dword} (hlt : roundedMag rn b < infinityMag) :
    singleUnits (packSingle (signOf b) (roundedMag rn b)) = doubleUnits b ↔ IsExact b := by
  rw [singleUnits_eq_doubleUnits_iff, singleMagUnits_roundedMag rn _ hlt, doubleMagUnits_eq, ulpUnits_eq,
    ← Nat.mul_assoc, Nat.mul_left_inj (Nat.two_pow_pos _).ne']
  exact roundedBits_value rn (signOf b) (significandOf b) (shiftOf b)

/-- A flushed result is a zero, and its operand is not. -/
theorem flushed_value_ne {b : Dword} (h : IsTiny b) :
    singleUnits (packSingle (signOf b) 0) ≠ doubleUnits b := by
  rw [Ne, singleUnits_eq_doubleUnits_iff, packSingle_units_low _ _ (by decide), Nat.zero_mul]
  exact ((doubleMagUnits_pos_iff b).mpr h.1).ne

theorem not_tiny_of_overflow {rn : RoundingMode} {b : Dword} (h : infinityMag ≤ roundedMag rn b) :
    ¬ exponentOf b < 897 :=
  fun he => Nat.not_le.mpr (roundedMag_lt_of_lt rn he) h

/-- The maximum finite single is `2^53 - 2^29` units of `2^1149`, and less in larger units. -/
theorem maxFinite_units_le (s : Bool) {n : Nat} (h : 1149 ≤ n) :
    singleMagUnits (packSingle s maxFiniteMag) ≤ (2 ^ 53 - 2 ^ 29) * 2 ^ n := by
  have hmag : maxFiniteMag = 254 * 2 ^ 23 + (2 ^ 24 - 1) - 2 ^ 23 := rfl
  rw [hmag, packSingle_units_high s 254 (2 ^ 24 - 1) (by decide) (by decide) (by decide) (by decide)]
  have hsplit : 2 ^ 53 - 2 ^ 29 = (2 ^ 24 - 1) * 2 ^ 29 := rfl
  have hexp : 254 + 924 ≤ 29 + n := by omega
  rw [hsplit, Nat.mul_assoc, ← Nat.pow_add]
  gcongr
  decide

/-- An operand that overflows has a magnitude of at least `2^128`, or rounds up from above the maximum finite single. -/
theorem overflow_cases {rn : RoundingMode} {b : Dword} (h : infinityMag ≤ roundedMag rn b) :
    1151 ≤ exponentOf b ∨ exponentOf b = 1150 ∧ 2 ^ 52 - 2 ^ 29 < fractionOf b := by
  have hfrac := fractionOf_lt b
  rw [infinityMag_le_roundedMag_iff, magnitudeImage] at h
  obtain hlarge | ⟨htop, hup⟩ := h
  · omega
  · have hlost : fractionOf b % 2 ^ 29 ≠ 0 := fun hzero => by
      rw [hzero, roundsUp_exact _ _ _ _ (by decide)] at hup
      cases hup
    omega

theorem maxFinite_lt_of_overflow {rn : RoundingMode} {b : Dword} (h : infinityMag ≤ roundedMag rn b) :
    singleMagUnits (packSingle (signOf b) maxFiniteMag) < doubleMagUnits b := by
  rw [doubleMagUnits, if_neg (fun he => not_tiny_of_overflow h (by omega))]
  obtain he | ⟨he, hf⟩ := overflow_cases h
  · have hexp : exponentOf b - 1 = 1 + (exponentOf b - 2) := by omega
    calc singleMagUnits (packSingle (signOf b) maxFiniteMag)
        ≤ (2 ^ 53 - 2 ^ 29) * 2 ^ (exponentOf b - 2) := maxFinite_units_le _ (by omega)
      _ < (2 ^ 52 + fractionOf b) * 2 * 2 ^ (exponentOf b - 2) :=
          Nat.mul_lt_mul_of_pos_right (by omega) (Nat.two_pow_pos _)
      _ = (2 ^ 52 + fractionOf b) * 2 ^ (exponentOf b - 1) := by rw [hexp, Nat.pow_add, Nat.mul_assoc, Nat.pow_one]
  · calc singleMagUnits (packSingle (signOf b) maxFiniteMag)
        ≤ (2 ^ 53 - 2 ^ 29) * 2 ^ (exponentOf b - 1) := maxFinite_units_le _ (by omega)
      _ < (2 ^ 52 + fractionOf b) * 2 ^ (exponentOf b - 1) :=
          Nat.mul_lt_mul_of_pos_right (by omega) (Nat.two_pow_pos _)

/-- What an overflow stores is not finite, or is the maximum finite number, which the operand exceeds. -/
theorem overflow_value_ne {rn : RoundingMode} {b : Dword} (h : infinityMag ≤ roundedMag rn b) :
    ¬ (SingleFinite (packSingle (signOf b) (overflowMag rn (signOf b))) ∧
      singleUnits (packSingle (signOf b) (overflowMag rn (signOf b))) = doubleUnits b) := by
  have hmag : overflowMag rn (signOf b) = infinityMag ∨ overflowMag rn (signOf b) = maxFiniteMag := by
    cases rn <;> cases signOf b <;> simp [overflowMag]
  rintro ⟨hfinite, hvalue⟩
  obtain hmag | hmag := hmag
  · rw [hmag, SingleFinite, packSingle_exponent _ _ (by decide)] at hfinite
    exact hfinite (by decide)
  · rw [hmag, singleUnits_eq_doubleUnits_iff] at hvalue
    exact (maxFinite_lt_of_overflow h).ne hvalue

/-- Settles O43: a flushed and an overflowed value differ from the operand's, and a rounded one when a bit was lost. -/
theorem inexactIffValueDiffers : Obligations.InexactIffValueDiffers := by
  intro mode rn ni b
  have hcases := sfd_cases mode rn ni b
  constructor
  · intro hfin
    obtain ⟨he, -⟩ | ⟨he, -⟩ | ⟨-, htiny, h⟩ | ⟨-, hover, h⟩ | ⟨-, hlt, h⟩ := hcases
    · exact absurd he hfin
    · exact absurd he hfin
    · rw [h]
      exact iff_of_true rfl fun hsame => flushed_value_ne htiny hsame.2
    · rw [h]
      exact iff_of_true rfl (overflow_value_ne hover)
    · rw [h, roundedMag_value_iff rn hlt, and_iff_right (singleFinite_packSingle _ hlt)]
      exact roundedFlags_xx_iff b
  · intro hfin
    obtain ⟨-, -, h⟩ | ⟨-, -, h⟩ | ⟨-, ⟨-, he⟩, -⟩ | ⟨he, -⟩ | ⟨he, -⟩ := hcases
    · rw [h]
      exact nanFlags_xx b
    · rw [h]
      rfl
    · exact absurd (show DoubleFinite b by rw [DoubleFinite]; omega) hfin
    · exact absurd he hfin
    · exact absurd he hfin

/-- Settles O44: only a flushed or a rounded tiny operand returns `UX`, and neither a NaN nor an infinity is finite. -/
theorem underflowIffTinyAndDiffers : Obligations.UnderflowIffTinyAndDiffers := by
  intro mode rn ni b
  rw [← and_assoc, isTiny_iff]
  obtain ⟨he, -, h⟩ | ⟨he, -, h⟩ | ⟨-, htiny, h⟩ | ⟨-, hover, h⟩ | ⟨hfin, hlt, h⟩ := sfd_cases mode rn ni b
  · simp [h, DoubleFinite, he]
  · simp [h, DoubleFinite, he, FpFlags.none]
  · rw [h]
    have hfin : DoubleFinite b := by have := htiny.2; rw [DoubleFinite]; omega
    exact iff_of_true rfl ⟨htiny, hfin, flushed_value_ne htiny⟩
  · rw [h]
    exact iff_of_false Bool.false_ne_true fun htiny => not_tiny_of_overflow hover htiny.1.2
  · rw [h, roundedFlags_ux_iff b, Ne, roundedMag_value_iff rn hlt]
    constructor
    · rintro ⟨hinexact, he⟩
      refine ⟨⟨fun hz => hinexact ?_, he⟩, hfin, hinexact⟩
      rw [IsExact, hz, Nat.zero_mod]
    · rintro ⟨⟨-, he⟩, -, hinexact⟩
      exact ⟨hinexact, he⟩

/-! ### Rounding (R125) -/

/-- The low significand bits an operand drops, as a number. -/
def droppedBits (b : Dword) : Nat := significandOf b % 2 ^ shiftOf b

/-- Whether an operand's kept bits are incremented (R125 step 7). -/
def increments (rn : RoundingMode) (b : Dword) : Bool :=
  roundsUp rn (signOf b) (significandOf b / 2 ^ shiftOf b) (droppedBits b) (2 ^ (shiftOf b - 1))

theorem droppedBits_lt (b : Dword) : droppedBits b < 2 ^ shiftOf b := Nat.mod_lt _ (Nat.two_pow_pos _)

theorem keptBits_eq (rn : RoundingMode) (b : Dword) :
    keptBits rn b = significandOf b / 2 ^ shiftOf b + if increments rn b then 1 else 0 := by
  rw [keptBits, roundedBits, Nat.shiftRight_eq_div_pow]
  rfl

/-- A result that is incremented is above its operand by what the dropped bits lack of a unit in the last place. -/
theorem keptBits_of_increments {rn : RoundingMode} {b : Dword} (h : increments rn b = true) :
    keptBits rn b * 2 ^ shiftOf b + droppedBits b = significandOf b + 2 ^ shiftOf b := by
  have hdiv := Nat.div_add_mod' (significandOf b) (2 ^ shiftOf b)
  rw [keptBits_eq, if_pos h, Nat.add_mul, Nat.one_mul, droppedBits]
  omega

/-- A result that is not incremented is below its operand by the dropped bits. -/
theorem keptBits_of_not_increments {rn : RoundingMode} {b : Dword} (h : ¬ increments rn b = true) :
    keptBits rn b * 2 ^ shiftOf b + droppedBits b = significandOf b := by
  rw [keptBits_eq, if_neg h, Nat.add_zero, droppedBits]
  exact Nat.div_add_mod' (significandOf b) (2 ^ shiftOf b)

theorem droppedBits_pos_of_increments {rn : RoundingMode} {b : Dword} (h : increments rn b = true) :
    0 < droppedBits b := by
  refine Nat.pos_of_ne_zero fun hzero => ?_
  rw [increments, hzero, roundsUp_exact _ _ _ _ (Nat.two_pow_pos _)] at h
  cases h

/-- The rounding error of a finite operand, in units of `2^(scaleOf b - 1)`. -/
def roundingError (rn : RoundingMode) (b : Dword) : Int :=
  (keptBits rn b * 2 ^ shiftOf b : Nat) - (significandOf b : Int)

/-- Rounding errs by less than one unit in the last place in every mode. -/
theorem roundingError_lt (rn : RoundingMode) (b : Dword) : (roundingError rn b).natAbs < 2 ^ shiftOf b := by
  have hdropped := droppedBits_lt b
  rw [roundingError]
  by_cases hup : increments rn b = true
  · have hkept := keptBits_of_increments hup
    have hpos := droppedBits_pos_of_increments hup
    omega
  · have hkept := keptBits_of_not_increments hup
    omega

/-- Rounding to nearest errs by at most half a unit in the last place, and by just half only to an even result. -/
theorem roundingError_nearest (b : Dword) :
    2 * (roundingError .nearest b).natAbs ≤ 2 ^ shiftOf b ∧
      (2 * (roundingError .nearest b).natAbs = 2 ^ shiftOf b → keptBits .nearest b % 2 = 0) := by
  have hdropped := droppedBits_lt b
  have hhalf : 2 ^ shiftOf b = 2 * 2 ^ (shiftOf b - 1) := by
    rw [← Nat.pow_succ', Nat.succ_eq_add_one, Nat.sub_add_cancel (shiftOf_pos b)]
  have hiff := roundsUp_nearest_iff (signOf b) (significandOf b / 2 ^ shiftOf b) (droppedBits b) (2 ^ (shiftOf b - 1))
  have hkept := keptBits_eq .nearest b
  rw [roundingError]
  by_cases hup : increments .nearest b = true
  · have hvalue := keptBits_of_increments hup
    have hcond := hiff.mp hup
    rw [if_pos hup] at hkept
    constructor <;> omega
  · have hvalue := keptBits_of_not_increments hup
    have hcond := mt hiff.mpr hup
    rw [if_neg hup] at hkept
    constructor <;> omega

/-- The stored value differs from the operand's by the rounding error. -/
theorem natAbs_units_sub (rn : RoundingMode) {b : Dword} (hlt : roundedMag rn b < infinityMag) :
    (singleUnits (packSingle (signOf b) (roundedMag rn b)) - doubleUnits b).natAbs =
      (roundingError rn b).natAbs * 2 ^ (scaleOf b - 1) := by
  have hscaled : ((keptBits rn b * ulpUnits b : Nat) : Int) - (doubleMagUnits b : Nat) =
      roundingError rn b * (2 ^ (scaleOf b - 1) : Nat) := by
    rw [ulpUnits_eq, doubleMagUnits_eq, roundingError, Int.sub_mul, ← Nat.mul_assoc, Int.natCast_mul,
      Int.natCast_mul (significandOf b)]
  rw [← Int.natAbs_natCast (2 ^ (scaleOf b - 1)), ← Int.natAbs_mul, ← hscaled, singleUnits_packSingle, doubleUnits,
    singleMagUnits_roundedMag rn _ hlt]
  split <;> omega

theorem singleMagUnits_le_of_towardZero {rn : RoundingMode} {b : Dword} (hlt : roundedMag rn b < infinityMag)
    (h : TowardZero rn (signOf b)) :
    singleMagUnits (packSingle (signOf b) (roundedMag rn b)) ≤ doubleMagUnits b := by
  have hdown : ¬ increments rn b = true := by simp [increments, roundsUp_of_towardZero h]
  have hkept := keptBits_of_not_increments hdown
  rw [singleMagUnits_roundedMag rn _ hlt, ulpUnits_eq, doubleMagUnits_eq, ← Nat.mul_assoc]
  exact Nat.mul_le_mul_right _ (by omega)

theorem le_singleMagUnits_of_awayFromZero {rn : RoundingMode} {b : Dword} (hlt : roundedMag rn b < infinityMag)
    (h : AwayFromZero rn (signOf b)) :
    doubleMagUnits b ≤ singleMagUnits (packSingle (signOf b) (roundedMag rn b)) := by
  have hdropped := droppedBits_lt b
  have hsig : significandOf b ≤ keptBits rn b * 2 ^ shiftOf b := by
    by_cases hup : increments rn b = true
    · have hkept := keptBits_of_increments hup
      omega
    · have hkept := keptBits_of_not_increments hup
      have hzero : ¬ droppedBits b ≠ 0 := mt (roundsUp_iff_of_awayFromZero h _ _ _).mpr hup
      omega
  rw [singleMagUnits_roundedMag rn _ hlt, ulpUnits_eq, doubleMagUnits_eq, ← Nat.mul_assoc]
  exact Nat.mul_le_mul_right _ hsig

theorem packSingle_lowBit (s : Bool) (mag : Nat) : (packSingle s mag).getLsbD 0 = decide (mag % 2 = 1) := by
  rw [packSingle, BitVec.getLsbD_append, if_pos (by decide), BitVec.getLsbD_ofNat]
  simp

theorem roundedMag_mod_two (rn : RoundingMode) (b : Dword) : roundedMag rn b % 2 = keptBits rn b % 2 := by
  by_cases h : exponentOf b < 897
  · rw [roundedMag_of_lt h]
  · have hkept := keptBits_bounds_of_le rn (Nat.not_lt.mp h)
    rw [roundedMag_of_le (Nat.not_lt.mp h)]
    omega

/-- Settles O46: the rounded magnitude's value, its direction and its error, each by the lemma for the mode. -/
theorem roundingIsDirected : Obligations.RoundingIsDirected := by
  intro mode rn b hfin hox
  have hlt : roundedMag rn b < infinityMag := by
    rw [← Nat.not_le, ← ox_iff mode rn false hfin, hox]
    exact Bool.false_ne_true
  have hword : (sfdArchitectural mode rn false b).1 = packSingle (signOf b) (roundedMag rn b) := by
    rw [sfd_rounded mode rn false hfin (fun h => Bool.false_ne_true h.1), if_neg (Nat.not_le.mpr hlt)]
  have hunit : 0 < 2 ^ (scaleOf b - 1) := Nat.two_pow_pos _
  have hcommute (n : Nat) : 2 * (n * 2 ^ (scaleOf b - 1)) = 2 * n * 2 ^ (scaleOf b - 1) := (Nat.mul_assoc ..).symm
  rw [hword, natAbs_units_sub rn hlt, ulpUnits_eq]
  refine ⟨packSingle_sign _ _, ?_, singleFinite_packSingle _ hlt, ?_, ?_, ?_, ?_, ?_, ?_⟩
  · rw [singleMagUnits_roundedMag rn _ hlt, ulpUnits_eq, Nat.mul_mod_left]
  · intro hrn
    have hle := singleMagUnits_le_of_towardZero hlt (.inl hrn)
    rw [singleUnits_packSingle, doubleUnits]
    split <;> omega
  · intro hrn
    rw [singleUnits_packSingle, doubleUnits]
    cases hs : signOf b with
    | false => simpa [hs] using le_singleMagUnits_of_awayFromZero hlt (.inl ⟨hrn, hs⟩)
    | true => simpa [hs] using singleMagUnits_le_of_towardZero hlt (.inr (.inl ⟨hrn, hs⟩))
  · intro hrn
    rw [singleUnits_packSingle, doubleUnits]
    cases hs : signOf b with
    | false => simpa [hs] using singleMagUnits_le_of_towardZero hlt (.inr (.inr ⟨hrn, hs⟩))
    | true => simpa [hs] using le_singleMagUnits_of_awayFromZero hlt (.inr ⟨hrn, hs⟩)
  · exact Nat.mul_lt_mul_of_pos_right (roundingError_lt rn b) hunit
  · rintro rfl
    rw [hcommute]
    exact Nat.mul_le_mul_right _ (roundingError_nearest b).1
  · rintro rfl htie
    rw [hcommute] at htie
    have heven := (roundingError_nearest b).2 (Nat.eq_of_mul_eq_mul_right hunit htie)
    rw [packSingle_lowBit, roundedMag_mod_two, heven]
    rfl

end Sys2Proof.Machine
end

section
/-! The conversion under every profile (41_single_from_double.md R121, R132, R133). First which conversion a profile
performs; then the core on which all return one word; last a store of a core value on the whole machine. -/

namespace Sys2Proof.Machine

/-! ### The configured profile (R121, R132) -/

theorem sfd_architectural {c : Config} (h : c.profile = .architectural) (rn : RoundingMode) (ni : Bool) (b : Dword) :
    sfd c rn ni b = sfdArchitectural c.nanNarrow rn ni b := by rw [sfd, h]

theorem sfd_snapshot {c : Config} (h : c.profile = .snapshot) (rn : RoundingMode) (ni : Bool) (b : Dword) :
    sfd c rn ni b = ((sfdArchitectural c.nanNarrow .nearest false b).1, FpFlags.none) := by rw [sfd, h, sfdSnapshot]

theorem sfd_book {c : Config} (h : c.profile = .book) (rn : RoundingMode) (ni : Bool) (b : Dword) :
    sfd c rn ni b = sfdBook b := by rw [sfd, h]

/-- Settles O50. -/
theorem snapshotProfileRoundsToNearest : Obligations.SnapshotProfileRoundsToNearest :=
  fun _ rn ni b hp => sfd_snapshot hp rn ni b

theorem extractLsb'_eq_zero_iff (b : Dword) : b.extractLsb' 0 63 = 0 ↔ exponentOf b = 0 ∧ fractionOf b = 0 := by
  have himage := magnitudeImage b
  have hfield : (b.extractLsb' 0 63).toNat = (b.setWidth 63).toNat := by simp
  rw [← BitVec.toNat_inj, hfield, himage]
  simp

/-- The field selection of G5. -/
theorem sfdBook_of_fields {b : Dword} (h : 896 < exponentOf b ∨ b.extractLsb' 0 63 = 0) :
    sfdBook b = (b.extractLsb' 62 2 ++ b.extractLsb' 29 30, FpFlags.none) := by
  simp only [sfdBook, if_pos h]

/-- The truncating shift of G5. -/
theorem sfdBook_of_denormal {b : Dword} (hl : 874 ≤ exponentOf b) (hr : exponentOf b ≤ 896) :
    sfdBook b = (b.extractLsb' 63 1 ++ 0#8 ++ BitVec.ofNat 23 ((2 ^ 52 + fractionOf b) >>> (926 - exponentOf b)),
      FpFlags.none) := by
  have hnot : ¬ (896 < exponentOf b ∨ b.extractLsb' 0 63 = 0) := by
    rw [extractLsb'_eq_zero_iff]
    omega
  simp only [sfdBook, if_neg hnot, if_pos hl]

/-- Settles O57: one lemma for each profile, and one for each defined branch of `book`. -/
theorem conversionIsTheProfiles : Obligations.ConversionIsTheProfiles := by
  intro c rn ni b
  refine ⟨fun h => sfd_architectural h rn ni b, fun h => sfd_snapshot h rn ni b, fun h => ?_⟩
  simp only [sfd_book h]
  refine ⟨rfl, fun hb => ?_, fun hl hr => ?_, fun _ _ => trivial⟩
  · rw [sfdBook_of_fields hb]
  · rw [sfdBook_of_denormal hl hr]

/-! ### Words by their fields -/

theorem toNat_append_eq_add {m n : Nat} (x : BitVec m) (y : BitVec n) :
    (x ++ y).toNat = x.toNat * 2 ^ n + y.toNat := by
  rw [BitVec.toNat_append, ← Nat.shiftLeft_add_eq_or_of_lt y.isLt, Nat.shiftLeft_eq]

theorem extractLsb'_sign (b : Dword) : b.extractLsb' 63 1 = BitVec.ofBool (signOf b) := by
  ext i hi
  simp [signOf, Nat.lt_one_iff.mp hi]

/-- A sign, an exponent field and a fraction field are a packed single. -/
theorem fields_eq_packSingle (b : Dword) (x : BitVec 8) (y : BitVec 23) :
    b.extractLsb' 63 1 ++ x ++ y = packSingle (signOf b) (x.toNat * 2 ^ 23 + y.toNat) := by
  have hx := x.isLt
  have hy := y.isLt
  apply BitVec.eq_of_toNat_eq
  rw [packSingle_toNat _ _ (by omega), toNat_append_eq_add, toNat_append_eq_add, extractLsb'_sign, BitVec.toNat_ofBool]
  omega

/-- The field selection of the `book` profile, which keeps the top exponent bit and the seven low ones. -/
theorem selection_eq_packSingle (b : Dword) :
    b.extractLsb' 62 2 ++ b.extractLsb' 29 30 =
      packSingle (signOf b) (exponentOf b / 2 ^ 10 * 2 ^ 30 + exponentOf b % 2 ^ 7 * 2 ^ 23 + fractionOf b / 2 ^ 29) := by
  have he := exponentOf_lt b
  have hf := fractionOf_lt b
  have hsign : (signOf b).toNat = b.toNat / 2 ^ 63 % 2 := by
    rw [← BitVec.toNat_ofBool, ← extractLsb'_sign, BitVec.extractLsb'_toNat, Nat.shiftRight_eq_div_pow, Nat.pow_one]
  apply BitVec.eq_of_toNat_eq
  rw [packSingle_toNat _ _ (by omega), toNat_append_eq_add, hsign]
  simp only [exponentOf, fractionOf, BitVec.extractLsb'_toNat, Nat.shiftRight_eq_div_pow]
  omega

/-! ### The agreement core (R133) -/

theorem sfd_exact (mode : NanNarrow) (rn : RoundingMode) (ni : Bool) {b : Dword} {mag : Nat}
    (hfin : exponentOf b ≠ 2047) (hni : ¬ (ni = true ∧ IsTiny b)) (hexact : IsExact b) (hmag : roundedMag rn b = mag)
    (hlt : mag < infinityMag) : sfdArchitectural mode rn ni b = (packSingle (signOf b) mag, FpFlags.none) := by
  rw [sfd_rounded mode rn ni hfin hni, hmag, if_neg (Nat.not_le.mpr hlt), roundedFlags_of_exact hexact]

theorem sfd_exact_normal (mode : NanNarrow) (rn : RoundingMode) (ni : Bool) {b : Dword} (hl : 897 ≤ exponentOf b)
    (hr : exponentOf b ≤ 1150) (hf : fractionOf b % 2 ^ 29 = 0) :
    sfdArchitectural mode rn ni b =
      (packSingle (signOf b) ((exponentOf b - 896) * 2 ^ 23 + fractionOf b / 2 ^ 29), FpFlags.none) := by
  have hfrac := fractionOf_lt b
  have hexact : IsExact b := by
    rw [IsExact, shiftOf_of_le hl, significandOf_of_le hl]
    omega
  have hmag : roundedMag rn b = (exponentOf b - 896) * 2 ^ 23 + fractionOf b / 2 ^ 29 := by
    rw [roundedMag_eq rn hl, hf, roundsUp_exact _ _ _ _ (by decide), if_neg Bool.false_ne_true, Nat.add_zero]
  exact sfd_exact mode rn ni (by omega) (fun h => Nat.not_lt.mpr hl h.2.2) hexact hmag (by rw [infinityMag]; omega)

theorem sfd_exact_denormal (mode : NanNarrow) (rn : RoundingMode) {b : Dword} (h : IsSingleDenormal b) :
    sfdArchitectural mode rn false b =
      (packSingle (signOf b) ((2 ^ 52 + fractionOf b) / 2 ^ (926 - exponentOf b)), FpFlags.none) := by
  obtain ⟨hl, hr, hrem⟩ := h
  have hlow : exponentOf b < 897 := by omega
  have hsig : significandOf b = 2 ^ 52 + fractionOf b := if_neg (by omega)
  have hshift : shiftOf b = 926 - exponentOf b := by
    rw [shiftOf_of_lt hlow, scaleOf]
    omega
  have hexact : IsExact b := by rw [IsExact, hsig, hshift, hrem]
  have hmag : roundedMag rn b = (2 ^ 52 + fractionOf b) / 2 ^ (926 - exponentOf b) := by
    rw [roundedMag_of_lt hlow, keptBits, roundedBits_exact _ _ _ _ hexact, hsig, hshift]
  exact sfd_exact mode rn false (by omega) (fun h => Bool.false_ne_true h.1) hexact hmag
    (by rw [← hmag]; exact roundedMag_lt_of_lt rn hlow)

/-- Profiles that return one word and no flag agree whichever is configured. -/
theorem sfd_of_agreement (c : Config) (rn : RoundingMode) (ni : Bool) {b : Dword} {w : Word}
    (harch : ∀ mode, sfdArchitectural mode rn ni b = (w, FpFlags.none))
    (hnearest : ∀ mode, sfdArchitectural mode .nearest false b = (w, FpFlags.none))
    (hbook : sfdBook b = (w, FpFlags.none)) : sfd c rn ni b = (w, FpFlags.none) := by
  cases hp : c.profile with
  | architectural => rw [sfd_architectural hp, harch]
  | snapshot => rw [sfd_snapshot hp, hnearest]
  | book => rw [sfd_book hp, hbook]

theorem sfd_core_zero (c : Config) (rn : RoundingMode) (ni : Bool) {b : Dword} (h : b.extractLsb' 0 63 = 0) :
    sfd c rn ni b = (b.extractLsb' 63 1 ++ 0#31, FpFlags.none) := by
  obtain ⟨he, hf⟩ := (extractLsb'_eq_zero_iff b).mp h
  have hsig := (significandOf_eq_zero_iff b).mpr ⟨he, hf⟩
  rw [extractLsb'_sign]
  refine sfd_of_agreement c rn ni (fun mode => sfd_zero mode rn ni hsig) (fun mode => sfd_zero mode _ _ hsig) ?_
  rw [sfdBook_of_fields (.inr h), selection_eq_packSingle, he, hf]
  rfl

theorem sfd_core_infinity (c : Config) (rn : RoundingMode) (ni : Bool) {b : Dword} (he : exponentOf b = 2047)
    (hf : fractionOf b = 0) : sfd c rn ni b = (b.extractLsb' 63 1 ++ 0xFF#8 ++ 0#23, FpFlags.none) := by
  rw [fields_eq_packSingle]
  refine sfd_of_agreement c rn ni (fun mode => sfd_infinity mode rn ni he hf)
    (fun mode => sfd_infinity mode _ _ he hf) ?_
  rw [sfdBook_of_fields (.inl (by omega)), selection_eq_packSingle, he, hf]
  rfl

theorem sfd_core_normal (c : Config) (rn : RoundingMode) (ni : Bool) {b : Dword} (hl : 897 ≤ exponentOf b)
    (hr : exponentOf b ≤ 1150) (hf : fractionOf b % 2 ^ 29 = 0) :
    sfd c rn ni b =
      (b.extractLsb' 63 1 ++ BitVec.ofNat 8 (exponentOf b - 896) ++ b.extractLsb' 29 23, FpFlags.none) := by
  have hexp : (BitVec.ofNat 8 (exponentOf b - 896)).toNat = exponentOf b - 896 := by
    rw [BitVec.toNat_ofNat]
    omega
  have hfrac : (b.extractLsb' 29 23).toNat = fractionOf b / 2 ^ 29 := by
    simp only [fractionOf, BitVec.extractLsb'_toNat, Nat.shiftRight_eq_div_pow]
    omega
  have hselect : exponentOf b / 2 ^ 10 * 2 ^ 30 + exponentOf b % 2 ^ 7 * 2 ^ 23 = (exponentOf b - 896) * 2 ^ 23 := by
    omega
  rw [fields_eq_packSingle, hexp, hfrac]
  refine sfd_of_agreement c rn ni (fun mode => sfd_exact_normal mode rn ni hl hr hf)
    (fun mode => sfd_exact_normal mode _ _ hl hr hf) ?_
  rw [sfdBook_of_fields (.inl (by omega)), selection_eq_packSingle, hselect]

/-- The fraction field of a binary32 denormal holds its kept bits whole. -/
theorem denormal_word {b : Dword} (h : exponentOf b ≤ 896) :
    b.extractLsb' 63 1 ++ 0#8 ++ BitVec.ofNat 23 ((2 ^ 52 + fractionOf b) >>> (926 - exponentOf b)) =
      packSingle (signOf b) ((2 ^ 52 + fractionOf b) / 2 ^ (926 - exponentOf b)) := by
  have hfrac := fractionOf_lt b
  have hdiv : (2 ^ 52 + fractionOf b) / 2 ^ (926 - exponentOf b) ≤ (2 ^ 52 + fractionOf b) / 2 ^ 30 :=
    Nat.div_le_div_left (Nat.pow_le_pow_right Nat.two_pos (by omega)) (by decide)
  have hkept : (2 ^ 52 + fractionOf b) / 2 ^ (926 - exponentOf b) < 2 ^ 23 := by omega
  have hexponent : (0#8).toNat = 0 := rfl
  rw [fields_eq_packSingle, Nat.shiftRight_eq_div_pow, BitVec.toNat_ofNat _ 23, Nat.mod_eq_of_lt hkept, hexponent,
    Nat.zero_mul, Nat.zero_add]

theorem sfd_core_denormal (c : Config) (rn : RoundingMode) {b : Dword} (h : IsSingleDenormal b) :
    sfd c rn false b =
      (b.extractLsb' 63 1 ++ 0#8 ++ BitVec.ofNat 23 ((2 ^ 52 + fractionOf b) >>> (926 - exponentOf b)),
        FpFlags.none) := by
  have hbook := sfdBook_of_denormal h.1 h.2.1
  rw [denormal_word h.2.1] at hbook ⊢
  exact sfd_of_agreement c rn false (fun mode => sfd_exact_denormal mode rn h) (fun mode => sfd_exact_denormal mode _ h)
    hbook

/-- Settles O51, one lemma for each clause. -/
theorem profilesAgreeOnCore : Obligations.ProfilesAgreeOnCore := by
  intro c rn ni b
  refine ⟨sfd_core_zero c rn ni, sfd_core_infinity c rn ni, sfd_core_normal c rn ni, ?_⟩
  rintro rfl h
  exact sfd_core_denormal c rn h

/-! ### A store under two profiles -/

/-- The state with another conversion profile configured. -/
def withProfile (s : State) (p : FpStoreProfile) : State := { s with cfg := { s.cfg with profile := p } }

/-- On the core the conversion does not depend on the profile. -/
theorem sfd_profile_irrelevant (c : Config) (p q : FpStoreProfile) (rn : RoundingMode) {ni : Bool} {b : Dword}
    (h : InCore b ∨ (ni = false ∧ IsSingleDenormal b)) :
    sfd { c with profile := p } rn ni b = sfd { c with profile := q } rn ni b := by
  obtain (hzero | ⟨he, hf⟩ | ⟨hl, hr, hf⟩) | ⟨rfl, hden⟩ := h
  · rw [sfd_core_zero _ rn ni hzero, sfd_core_zero _ rn ni hzero]
  · rw [sfd_core_infinity _ rn ni he hf, sfd_core_infinity _ rn ni he hf]
  · rw [sfd_core_normal _ rn ni hl hr hf, sfd_core_normal _ rn ni hl hr hf]
  · rw [sfd_core_denormal _ rn hden, sfd_core_denormal _ rn hden]

theorem storeAddress_withProfile (i : Instr) (s : State) (p : FpStoreProfile) :
    storeAddress i (withProfile s p) = storeAddress i s := by cases i <;> rfl

theorem canRun_withProfile {i : Instr} {s : State} {p q : FpStoreProfile}
    (hconv : converted (withProfile s p) i.fs = converted (withProfile s q) i.fs) (hcan : CanRun i (withProfile s p)) :
    CanRun i (withProfile s q) := by
  obtain ⟨hready, hform, hstore⟩ := hcan
  rw [storeAddress_withProfile] at hstore
  obtain ⟨htop, halign, hmap, htext, htrap⟩ := hstore
  refine ⟨hready, hform, ?_⟩
  rw [storeAddress_withProfile]
  refine ⟨htop, halign, hmap, htext, ?_⟩
  simp only [converted] at hconv
  rw [← hconv]
  exact htrap

theorem completed_withProfile (i : Instr) (s : State) (p q : FpStoreProfile)
    (hconv : converted (withProfile s p) i.fs = converted (withProfile s q) i.fs) :
    completed i (withProfile s q) =
      { completed i (withProfile s p) with cfg := { s.cfg with profile := q } } := by
  rw [completed, completed, storeAddress_withProfile, storeAddress_withProfile, storeEffect, storeEffect, hconv]
  cases i <;> rfl

/-- Settles O52: on the core the profile changes neither the conversion nor, then, what the instruction does. -/
theorem coreStoreSameUnderEveryProfile : Obligations.CoreStoreSameUnderEveryProfile := by
  intro i s t p q hcore hexec
  have hconv : converted (withProfile s p) i.fs = converted (withProfile s q) i.fs :=
    sfd_profile_irrelevant s.cfg p q s.fpscr.rn hcore
  obtain ⟨hcan, rfl⟩ := (exec_next i (withProfile s p) t).mp hexec
  exact (exec_next i (withProfile s q) _).mpr ⟨canRun_withProfile hconv hcan, (completed_withProfile i s p q hconv).symm⟩

end Sys2Proof.Machine
end

section
/-! The statements about exceptions and the outcomes of a step (60_exceptions.md). First what each test of a store
answers, and an instruction with it; then every way an instruction can end, with the condition it ends on; last the ways
a fetch can stop, and so every outcome of a step. -/

namespace Sys2Proof.Machine

/-! ### The tests of a store (40_fp_store_single.md R101) -/

/-- The store does not pass the top of the address space, or wraps there (20_memory.md R56). -/
abbrev TopRuns (s : State) (ea : Addr) : Prop := ea.toNat ≤ 0xFFFFFFFC ∨ s.cfg.eaTopWrap = .wrap

/-- The store is misaligned, on storage where that is an exception (20_memory.md R58). -/
abbrev AlignmentFails (s : State) (ea : Addr) : Prop :=
  ea.toNat % 4 ≠ 0 ∧ s.cfg.ciMisaligned = .fault ∧ ∃ a, InStore ea a ∧ cacheInhibited s a = true

theorem topTest_iff (s : State) (ea : Addr) :
    0xFFFFFFFC < ea.toNat ∧ s.cfg.eaTopWrap = .refuse ↔ ¬ TopRuns s ea := by
  cases h : s.cfg.eaTopWrap <;> simp [TopRuns, h]

theorem alignmentTest_iff (s : State) (ea : Addr) :
    misaligned ea = true ∧ s.cfg.ciMisaligned = .fault ∧ (lanes ea).any (cacheInhibited s) = true ↔
      AlignmentFails s ea := by
  rw [misaligned_eq, lanes_any]

theorem unmappedTest_iff (s : State) (ea : Addr) :
    (lanes ea).any (fun a => !mapped s a) = true ↔ ∃ a, InStore ea a ∧ mapped s a = false := by
  simp only [lanes_any, Bool.not_eq_true']

theorem not_unmappedTest_iff (s : State) (ea : Addr) :
    ¬ (lanes ea).any (fun a => !mapped s a) = true ↔ ∀ a, InStore ea a → mapped s a = true := by
  simp only [Bool.not_eq_true, lanes_any_false, Bool.not_eq_false']

theorem not_textTest_iff (s : State) (ea : Addr) :
    ¬ (lanes ea).any (inText s) = true ↔ ∀ a, InStore ea a → inText s a = false := by
  rw [Bool.not_eq_true, lanes_any_false]

theorem alignment_of_not_alignmentFails {s : State} {ea : Addr} (h : ¬ AlignmentFails s ea) :
    ea.toNat % 4 = 0 ∨ (∀ a, InStore ea a → cacheInhibited s a = false) ∨ s.cfg.ciMisaligned = .perform := by
  cases hcfg : s.cfg.ciMisaligned with
  | perform => exact .inr (.inr rfl)
  | fault =>
    refine or_iff_not_imp_left.mpr fun hodd => .inl fun a ha => Bool.eq_false_iff.mpr fun hci => ?_
    exact h ⟨hodd, hcfg, a, ha, hci⟩

section
variable {s : State} {ea : Addr} {fs : RegNum}

theorem storeStop_eaTop (htop : ¬ TopRuns s ea) : storeStop s ea fs = some (.refused .eaTop) :=
  if_pos ((topTest_iff s ea).mpr htop)

theorem storeStop_alignment (htop : TopRuns s ea) (halign : AlignmentFails s ea) :
    storeStop s ea fs = some (raise (.alignment ea)) := by
  rw [storeStop, if_neg ((topTest_iff s ea).not_left.mpr htop), if_pos ((alignmentTest_iff s ea).mpr halign)]

theorem storeStop_unmapped (htop : TopRuns s ea) (halign : ¬ AlignmentFails s ea)
    (hmap : ∃ a, InStore ea a ∧ mapped s a = false) : storeStop s ea fs = some (.fault (.unmappedStore ea)) := by
  rw [storeStop, if_neg ((topTest_iff s ea).not_left.mpr htop), if_neg ((alignmentTest_iff s ea).not.mpr halign),
    if_pos ((unmappedTest_iff s ea).mpr hmap)]

/-- The last two tests, of a store that passes the others. -/
theorem storeStop_of_mapped (htop : TopRuns s ea) (halign : ¬ AlignmentFails s ea)
    (hmap : ∀ a, InStore ea a → mapped s a = true) :
    storeStop s ea fs =
      if (lanes ea).any (inText s) then some (.refused .storeToCode)
      else if s.fpscr.enables.trapOn (converted s fs).2 then some (.refused .enabledTrap)
      else none := by
  rw [storeStop, if_neg ((topTest_iff s ea).not_left.mpr htop), if_neg ((alignmentTest_iff s ea).not.mpr halign),
    if_neg ((not_unmappedTest_iff s ea).mpr hmap)]

theorem storeStop_text (htop : TopRuns s ea) (halign : ¬ AlignmentFails s ea)
    (hmap : ∀ a, InStore ea a → mapped s a = true) (htext : ∃ a, InStore ea a ∧ inText s a = true) :
    storeStop s ea fs = some (.refused .storeToCode) := by
  rw [storeStop_of_mapped htop halign hmap, if_pos ((lanes_any ea _).mpr htext)]

theorem storeStop_trap (htop : TopRuns s ea) (halign : ¬ AlignmentFails s ea)
    (hmap : ∀ a, InStore ea a → mapped s a = true) (htext : ∀ a, InStore ea a → inText s a = false)
    (htrap : s.fpscr.enables.trapOn (converted s fs).2 = true) :
    storeStop s ea fs = some (.refused .enabledTrap) := by
  rw [storeStop_of_mapped htop halign hmap, if_neg ((not_textTest_iff s ea).mpr htext), if_pos htrap]

end

/-! ### The outcome of each test (60_exceptions.md R147) -/

/-- A store with update whose form runs meets the tests of a store without. -/
theorem storeUpdate_of_form {s : State} {ra : RegNum} (ea : Addr) (fs : RegNum)
    (h : ra ≠ 0 ∨ s.cfg.invalidFormRA0 = .snapshot) :
    storeUpdate s ra ea fs =
      finish ((fpStop s).or ((storeStop s ea fs).or (pcStop s)))
        (advancePc (writeGpr (storeEffect s ea fs) ra (updateVal ea))) := by
  rw [storeUpdate, (updateFormStop_none s ra).mpr h, Option.none_or]

/-- One reading for every form that runs: the tests in order, then the completed state. -/
theorem exec_of_formRuns {i : Instr} {s : State} (h : FormRuns i s) :
    exec i s = finish ((fpStop s).or ((storeStop s (storeAddress i s) i.fs).or (pcStop s))) (completed i s) := by
  cases i with
  | stfs fs ra d => rfl
  | stfsx fs ra rb => rfl
  | stfsu fs ra d => exact storeUpdate_of_form _ fs (h.imp_left of_decide_eq_true)
  | stfsux fs ra rb => exact storeUpdate_of_form _ fs (h.imp_left of_decide_eq_true)

section
variable {i : Instr} {s : State} (hform : FormRuns i s)
include hform

theorem exec_of_fp_off (hfp : s.msr.fp = false) : exec i s = .fault (.raised .floatingPointUnavailable) := by
  have hstop : fpStop s = some (raise .floatingPointUnavailable) := if_pos hfp
  rw [exec_of_formRuns hform, hstop, Option.some_or, finish_some, raise, Stop.toResult]

theorem exec_of_storeStop (hfp : s.msr.fp = true) {x : Stop} (h : storeStop s (storeAddress i s) i.fs = some x) :
    exec i s = x.toResult := by
  rw [exec_of_formRuns hform, (fpStop_none s).mpr hfp, Option.none_or, h, Option.some_or, finish_some]

theorem exec_of_pc_top (hfp : s.msr.fp = true) (hstore : StoreCanRun s (storeAddress i s) i.fs)
    (hpc : 0xFFFFFFFC ≤ s.pc.toNat) : exec i s = .refused .pcTop := by
  have hstop : pcStop s = some (.refused .pcTop) := if_pos hpc
  rw [exec_of_formRuns hform, (fpStop_none s).mpr hfp, (storeStop_none _ _ _).mpr hstore, hstop, Option.none_or,
    Option.none_or, finish_some, Stop.toResult]

end

/-- Settles O18: a lemma for each test, under the hypotheses that the tests before it pass. -/
theorem outcomesInOrder : Obligations.OutcomesInOrder := by
  rintro i s _ rfl
  refine ⟨exec_of_not_formRuns i s, fun hform => ⟨exec_of_fp_off hform, fun hfp => ⟨fun htop => ?_, fun htop =>
    ⟨fun halign => ?_, fun halign => ⟨fun hmap => ?_, fun hmap => ⟨fun htext => ?_, fun htext =>
    ⟨fun htrap => ?_, fun htrap hpc => ?_⟩⟩⟩⟩⟩⟩⟩
  · exact exec_of_storeStop hform hfp (storeStop_eaTop htop)
  · exact exec_of_storeStop hform hfp (storeStop_alignment htop halign)
  · exact exec_of_storeStop hform hfp (storeStop_unmapped htop halign hmap)
  · exact exec_of_storeStop hform hfp (storeStop_text htop halign hmap htext)
  · exact exec_of_storeStop hform hfp (storeStop_trap htop halign hmap htext htrap)
  · have hstore : StoreCanRun s (storeAddress i s) i.fs :=
      ⟨htop, alignment_of_not_alignmentFails halign, hmap, htext, htrap⟩
    exact exec_of_pc_top hform hfp hstore hpc

/-- Settles O14, by the inversion of `exec` and its converse. -/
theorem completesExactlyWhen : Obligations.CompletesExactlyWhen :=
  fun i s => ⟨fun ⟨t, h⟩ => ((exec_next i s t).mp h).1, fun h => ⟨completed i s, exec_of_canRun h⟩⟩

/-! ### Every way an instruction can end (60_exceptions.md R156) -/

/-- The results an instruction can have, each with the condition it is answered on. -/
inductive ExecEnds (i : Instr) (s : State) : Result → Prop where
  | completes (h : CanRun i s) : ExecEnds i s (.next (completed i s))
  | invalidForm (h : ¬ FormRuns i s) : ExecEnds i s (.refused .invalidForm)
  | fpOff (h : s.msr.fp = false) : ExecEnds i s (.fault (.raised .floatingPointUnavailable))
  | eaTop (h : ¬ TopRuns s (storeAddress i s)) : ExecEnds i s (.refused .eaTop)
  | alignment (h : AlignmentFails s (storeAddress i s)) :
      ExecEnds i s (.fault (.raised (.alignment (storeAddress i s))))
  | unmapped (h : ∃ a, InStore (storeAddress i s) a ∧ mapped s a = false) :
      ExecEnds i s (.fault (.unmappedStore (storeAddress i s)))
  | text (h : ∃ a, InStore (storeAddress i s) a ∧ inText s a = true) : ExecEnds i s (.refused .storeToCode)
  | trap (h : s.fpscr.enables.trapOn (converted s i.fs).2 = true) : ExecEnds i s (.refused .enabledTrap)
  | pcTop (h : 0xFFFFFFFC ≤ s.pc.toNat) : ExecEnds i s (.refused .pcTop)

/-- The conditions of R147 leave no outcome out: an instruction ends at the first that applies, or completes. -/
theorem execEnds_exec (i : Instr) (s : State) : ExecEnds i s (exec i s) := by
  obtain ⟨hinvalid, hruns⟩ := outcomesInOrder i s _ rfl
  by_cases hform : FormRuns i s
  case neg => rw [hinvalid hform]; exact .invalidForm hform
  obtain ⟨hoff, hon⟩ := hruns hform
  by_cases hfp : s.msr.fp = true
  case neg => rw [hoff (Bool.eq_false_iff.mpr hfp)]; exact .fpOff (Bool.eq_false_iff.mpr hfp)
  obtain ⟨hpast, htopRuns⟩ := hon hfp
  by_cases htop : TopRuns s (storeAddress i s)
  case neg => rw [hpast htop]; exact .eaTop htop
  obtain ⟨hraise, haligned⟩ := htopRuns htop
  by_cases halign : AlignmentFails s (storeAddress i s)
  case pos => rw [hraise halign]; exact .alignment halign
  obtain ⟨hstuck, hmapped⟩ := haligned halign
  by_cases hmap : ∃ a, InStore (storeAddress i s) a ∧ mapped s a = false
  case pos => rw [hstuck hmap]; exact .unmapped hmap
  have hallMapped : ∀ a, InStore (storeAddress i s) a → mapped s a = true := by simpa using hmap
  obtain ⟨hcode, hdata⟩ := hmapped hallMapped
  by_cases htext : ∃ a, InStore (storeAddress i s) a ∧ inText s a = true
  case pos => rw [hcode htext]; exact .text htext
  have hnoText : ∀ a, InStore (storeAddress i s) a → inText s a = false := by simpa using htext
  obtain ⟨htrapped, hlast⟩ := hdata hnoText
  by_cases htrap : s.fpscr.enables.trapOn (converted s i.fs).2 = true
  case pos => rw [htrapped htrap]; exact .trap htrap
  have hnoTrap : s.fpscr.enables.trapOn (converted s i.fs).2 = false := Bool.eq_false_iff.mpr htrap
  by_cases hpc : 0xFFFFFFFC ≤ s.pc.toNat
  case pos => rw [hlast hnoTrap hpc]; exact .pcTop hpc
  have hcan : CanRun i s :=
    { ready := ⟨hfp, not_le.mp hpc⟩
      form := hform
      store := ⟨htop, alignment_of_not_alignmentFails halign, hallMapped, hnoText, hnoTrap⟩ }
  rw [exec_of_canRun hcan]
  exact .completes hcan

theorem execEnds_of_exec {i : Instr} {s : State} {r : Result} (h : exec i s = r) : ExecEnds i s r :=
  h ▸ execEnds_exec i s

/-! ### The two exceptions (60_exceptions.md R140, R141) -/

/-- Settles O15: the first test of a form that runs, and the one condition its exception ends on. -/
theorem floatingPointUnavailable : Obligations.FloatingPointUnavailable := by
  refine ⟨fun i s hfp hform => exec_of_fp_off hform hfp, fun i s hexec => ?_⟩
  cases execEnds_of_exec hexec with
  | fpOff hfp => exact hfp

/-- Settles O16: the test of a store that passes the top, and the one condition its exception ends on. -/
theorem alignmentException : Obligations.AlignmentException := by
  refine ⟨fun i s hfp hform htop hodd hci hcfg => ?_, fun i s ea hexec => ?_⟩
  · exact exec_of_storeStop hform hfp (storeStop_alignment htop ⟨hodd, hcfg, hci⟩)
  · cases execEnds_of_exec hexec with
    | alignment halign =>
      obtain ⟨hodd, hcfg, hci⟩ := halign
      exact ⟨rfl, hodd, hci, hcfg⟩

/-! ### Every outcome of a step (60_exceptions.md R142, R156) -/

/-- The reasons a step can end on without running an instruction (40_fp_store_single.md R100). -/
inductive FetchEnds (s : State) : Stop → Prop where
  | pcMisaligned : FetchEnds s (.refused .pcMisaligned)
  | unmappedFetch : FetchEnds s (.fault (.unmappedFetch s.pc))
  | fetchOfStoredBytes : FetchEnds s (.refused .fetchOfStoredBytes)
  | unwrittenFetch : FetchEnds s (.fault (.unwrittenFetch s.pc))
  | reservedRc : FetchEnds s (.refused .reservedRc)
  | notInScope : FetchEnds s (.refused .notInScope)

theorem fetchEnds_of_fetchStop {s : State} {x : Stop} (h : fetchStop s = some x) : FetchEnds s x := by
  rw [fetchStop] at h
  split at h
  · cases h; exact .pcMisaligned
  · split at h
    · cases h; exact .unmappedFetch
    · split at h
      · cases h; exact .fetchOfStoredBytes
      · cases h

theorem fetchEnds_of_fetchVerdict {s : State} {x : Stop} (h : fetchVerdict s = .error x) : FetchEnds s x := by
  rw [fetchVerdict] at h
  split at h
  · rename_i hstop
    cases h
    exact fetchEnds_of_fetchStop hstop
  · split at h
    · cases h; exact .unwrittenFetch
    · split at h
      · cases h
      · cases h; exact .unwrittenFetch

theorem fetchEnds_of_accept {s : State} {v : Verdict} {x : Stop} (h : accept s v = .error x) : FetchEnds s x := by
  cases v with
  | instr i => cases h
  | invalidForm i => cases h
  | notInScope => cases h; exact .notInScope
  | reservedRc i =>
    rw [accept] at h
    split at h
    · cases h; exact .reservedRc
    · cases h

theorem fetchEnds_of_fetchInstr {s : State} {x : Stop} (h : fetchInstr s = .error x) : FetchEnds s x := by
  rw [fetchInstr] at h
  split at h
  · rename_i hverdict
    cases h
    exact fetchEnds_of_fetchVerdict hverdict
  · exact fetchEnds_of_accept h

/-- A step ends without running an instruction, or ends as the instruction it fetched. -/
theorem step_cases (s : State) :
    (∃ x, FetchEnds s x ∧ step s = x.toResult) ∨ ∃ i, ExecEnds i s (step s) := by
  rw [step]
  split
  · rename_i x h; exact .inl ⟨x, fetchEnds_of_fetchInstr h, rfl⟩
  · exact .inr ⟨_, execEnds_exec _ s⟩

/-- Settles O23: a stop of the fetch is a fetch fault or a refusal, and an instruction ends as `ExecEnds` lists. -/
theorem stepOutcomes : Obligations.StepOutcomes := by
  intro s
  obtain ⟨x, hends, hstep⟩ | ⟨i, hends⟩ := step_cases s
  · rw [hstep]
    cases hends with
    | unmappedFetch => exact .inr (.inr (.inr (.inr (.inl rfl))))
    | unwrittenFetch => exact .inr (.inr (.inr (.inr (.inr (.inl rfl)))))
    | pcMisaligned | fetchOfStoredBytes | reservedRc | notInScope => simp [Stop.toResult]
  · generalize step s = r at hends ⊢
    cases hends with
    | completes _ => exact .inl ⟨completed i s, rfl⟩
    | fpOff _ => exact .inr (.inl rfl)
    | alignment h => exact .inr (.inr (.inl ⟨storeAddress i s, h.1, rfl⟩))
    | unmapped _ => exact .inr (.inr (.inr (.inl ⟨storeAddress i s, rfl⟩)))
    | invalidForm _ | eaTop _ | text _ | trap _ | pcTop _ => simp

end Sys2Proof.Machine
end
